-- ==== Sys2Proof/Word.lean ====
section
/-! DEFINITION. The word types of the LCD protocol engine: 00_scope.md rule R12. -/

namespace Sys2Proof

/-- Eight bits: a register of the flag-merge file, a bus byte, a packet byte. -/
abbrev Byte := BitVec 8

/-- Half a byte: what one enable pulse latches (20_memory.md R66). -/
abbrev Nibble := BitVec 4

/-- The 32-bit quantities: `COLS`, `ROWS` (10_state.md R22, R23) and the operand of PRINTN (30_encoding.md R84). -/
abbrev Word := BitVec 32

/-- A number of microseconds: `sleepMicroseconds(n: u32)` (60_exceptions.md R181). -/
abbrev Micros := BitVec 32

end Sys2Proof
end

