-- ==== Sys2Proof/Config.lean ====
section
/-! DEFINITION. What is fixed for one engine: the open parameters of the block (00_scope.md R7, R8, R9), the
configuration straps (00_scope.md R11), and the one free value of the model, the transport's answers (00_scope.md R14). -/

namespace Sys2Proof.Config

/-- The transport's answer to a `Bind` or a `BusWrite` (00_scope.md R10; 60_exceptions.md R170). -/
inductive Answer where
  | ok
  | busError
  deriving DecidableEq, Repr, Inhabited

/-- The FREE VALUE of the model: the transport's answer to the `n`-th question since reset, wherever no scripted
answer stands in the state. It has no body: "the answer to every `BusWrite` and `Bind` (any mixture of `ok` and
`BusError`)" is one of the inputs R14 says a model must leave free. DESIGN CHOICE (its form), notes/assumptions/6.md. -/
opaque busAnswer : Nat → Answer

/-- The font straps of `CHARSIZE` (10_state.md R24). -/
inductive CharSize where
  | dots5x8
  | dots5x10
  deriving DecidableEq, Repr

/-- The one-bit encoding of `CHARSIZE`: `0 = 5x8`, `1 = 5x10` (10_state.md R24). -/
def CharSize.code : CharSize → BitVec 1
  | .dots5x8 => 0
  | .dots5x10 => 1

/-- The configuration straps, sampled once at reset (00_scope.md R10, R11); an omitted `charSize` is `5x8`
(10_state.md R24). -/
structure Straps where
  addr     : Byte
  cols     : Word
  rows     : Word
  charSize : CharSize := .dots5x8
  deriving DecidableEq, Repr

/-- `ROWS` is one of 1, 2, 3, 4; any other configuration is refused at construction (10_state.md R23). -/
def rowsSupported (rows : Word) : Bool := 1 ≤ rows.toNat && rows.toNat ≤ 4

/-- The open parameters: the table of 00_scope.md R8 in its order, then the two configurable margins of R7. -/
structure Params where
  enMask          : Byte
  rsMask          : Byte
  rwMask          : Byte
  clearDisplay    : Byte
  returnHome      : Byte
  entryModeSet    : Byte
  displayControl  : Byte
  functionSet     : Byte
  setDdramAddr    : Byte
  entryLeft       : Byte
  shiftDecrement  : Byte
  displayOn       : Byte
  cursorOff       : Byte
  blinkOff        : Byte
  mode4Bit        : Byte
  lines2          : Byte
  lines1          : Byte
  dots5x10        : Byte
  dots5x8         : Byte
  tPower          : Micros
  tBlSettle       : Micros
  deriving DecidableEq, Repr

/-- The default column of 00_scope.md R8 (PRESUMED, general knowledge of the family by the spec's own mark) and
the two defaults of R7. notes/assumptions/5.md. -/
def Params.default : Params where
  enMask          := 0x04
  rsMask          := 0x01
  rwMask          := 0x02
  clearDisplay    := 0x01
  returnHome      := 0x02
  entryModeSet    := 0x04
  displayControl  := 0x08
  functionSet     := 0x20
  setDdramAddr    := 0x80
  entryLeft       := 0x02
  shiftDecrement  := 0x00
  displayOn       := 0x04
  cursorOff       := 0x00
  blinkOff        := 0x00
  mode4Bit        := 0x00
  lines2          := 0x08
  lines1          := 0x00
  dots5x10        := 0x04
  dots5x8         := 0x00
  tPower          := 50000
  tBlSettle       := 1000000

/-- "one bit; within `0x07`" (00_scope.md R8, R9 (a)). -/
abbrev SingleLine (v : Byte) : Prop := v = 0x01 ∨ v = 0x02 ∨ v = 0x04

/-- The constraint column of 00_scope.md R8, no more: "A model must not assume more than this table" (R9 (d)). -/
abbrev Params.WellFormed (p : Params) : Prop :=
  (SingleLine p.enMask ∧ SingleLine p.rsMask ∧ SingleLine p.rwMask)
  ∧ (p.enMask ≠ p.rsMask ∧ p.enMask ≠ p.rwMask ∧ p.rsMask ≠ p.rwMask)
  ∧ (p.displayOn ≠ 0 ∧ p.cursorOff &&& p.displayOn = 0 ∧ p.blinkOff &&& p.displayOn = 0)
  ∧ (p.lines2 ≠ 0 ∧ p.lines1 &&& p.lines2 = 0)
  ∧ (p.dots5x10 ≠ 0 ∧ p.dots5x10 &&& p.lines2 = 0 ∧ p.dots5x8 &&& p.dots5x10 = 0)

/-- The straps of the spec's own programs ("Configuration unless stated", 95_test_vectors.md part 3).
DESIGN CHOICE, notes/assumptions/4.md. -/
def Straps.default : Straps where
  addr := 0x27
  cols := 16
  rows := 2

end Sys2Proof.Config
end

