-- ==== Sys2Proof/Machine/State.lean ====
section
/-! DEFINITION. Everything the spec gives the machine: 10_state.md R20, the ghost latch of R38, the event trace of
20_memory.md R65; and the model's own inputs (command port, scripted answers) and parameters. Plain data. -/

namespace Sys2Proof.Machine

open Sys2Proof.Config (Answer CharSize Straps Params)

/-- The initialization FSM's state (10_state.md R33). -/
inductive Phase where
  | unpowered
  | powerSettle
  | forceIdle1
  | forceIdle2
  | forceIdle3
  | fourBitLatch
  | functionSet
  | displayOn
  | cleared
  | entryModeSet
  | homed
  | ready
  deriving DecidableEq, Repr

/-- The four-bit encoding of `PHASE`; 12 to 15 are reserved and never taken (10_state.md R33). -/
def Phase.code : Phase → BitVec 4
  | .unpowered => 0
  | .powerSettle => 1
  | .forceIdle1 => 2
  | .forceIdle2 => 3
  | .forceIdle3 => 4
  | .fourBitLatch => 5
  | .functionSet => 6
  | .displayOn => 7
  | .cleared => 8
  | .entryModeSet => 9
  | .homed => 10
  | .ready => 11

/-- The status of a completion record (10_state.md R36). -/
inductive Status where
  | ok
  | busErr
  | refused
  deriving DecidableEq, Repr

/-- The two-bit encoding of `STATUS`; 3 is reserved and never produced (10_state.md R36). -/
def Status.code : Status → BitVec 2
  | .ok => 0
  | .busErr => 1
  | .refused => 2

/-- One event of the observed trace (20_memory.md R65). -/
inductive Event where
  /-- `Bind(id)` with its answer. -/
  | bind (id : Byte) (answer : Answer)
  /-- `Wr(a, v)` with its answer; `Wr!` when the answer is `BusError`. -/
  | wr (addr value : Byte) (answer : Answer)
  /-- `Dly(n)`. -/
  | dly (n : Micros)
  /-- `Done(status, value)`. -/
  | done (status : Status) (value : Byte)
  deriving DecidableEq, Repr

/-- What is known of the ghost `XLATCH`, the byte on the expander's lines (10_state.md R38). -/
inductive XLatch where
  /-- Before the first write: any byte. -/
  | unknown
  /-- After the first write, acknowledged, until the next: any byte, for "the first write after cold boot is
  unreliable on some expander ICs" (70_reset_and_hazards.md R200; 93 U3). notes/assumptions/10.md. -/
  | coldBoot
  /-- After any later acknowledged write: that byte. -/
  | byte (v : Byte)
  /-- After a write answered `BusError`: "either the old or the new byte". -/
  | either (new : Byte) (old : XLatch)
  deriving DecidableEq, Repr

/-- Why the machine stops with a fault. -/
inductive Fault where
  /-- Raised by the admission of an operation and by the step in a state with `BUSY = 1`: "while `BUSY = 1` the host
  has no move" (10_state.md R34), and an engine whose transport never answers is stuck (93 U6). No step leads to
  such a state. SAFE: nothing is claimed to run there. notes/assumptions/12.md. -/
  | stuckBusy
  deriving DecidableEq, Repr

/-- Why the model gives an operation no meaning. -/
inductive Refusal where
  /-- Raised by an arm of `exec` that has no meaning yet (none in this model). SAFE. -/
  | notModelled (mnemonic : String)
  /-- Raised by the construction, and by every operation in a state whose `ROWS` is outside 1..4: "the model gives it
  no meaning (refusal at construction; errs toward unprovable)" (10_state.md R23; 93 U7).
  SAFE. notes/assumptions/11.md. -/
  | rowsUnsupported
  deriving DecidableEq, Repr

/-- The machine: 10_state.md R20 in its order, then the ghost, the trace, and the model's own fields. -/
structure State where
  /-- `ADDR` (R21). -/
  addr     : Byte
  /-- `COLS` (R22). -/
  cols     : Word
  /-- `ROWS` (R23). -/
  rows     : Word
  /-- `CHARSIZE` (R24). -/
  charSize : CharSize
  /-- `DF`, displayFunction (R27). -/
  df       : Byte
  /-- `DC`, displayControl (R28). -/
  dc       : Byte
  /-- `DM`, displayMode (R29). -/
  dm       : Byte
  /-- `BL`, backlightOn (R30). -/
  bl       : Bool
  /-- `PHASE` (R33). -/
  phase    : Phase
  /-- `BUSY` (R34). -/
  busy     : Bool
  /-- `UPC`, the index of the next micro-operation (R34). -/
  upc      : Nat
  /-- `BUSID` (R35). -/
  busId    : Byte
  /-- `STATUS` (R36). -/
  status   : Status
  /-- `VALUE` (R36). -/
  value    : Byte
  /-- `XLATCH`, ghost (R38). -/
  xlatch   : XLatch
  /-- The event trace since reset, oldest first (20_memory.md R65). -/
  trace    : List Event
  /-- Model's own: the bytes at the command port (00_scope.md R10). notes/assumptions/14.md. -/
  port     : List Byte
  /-- Model's own: the transport's next answers, as far as they are scripted. notes/assumptions/6.md. -/
  answers  : List Answer
  /-- Model's own: how many answers have been taken since reset. notes/assumptions/6.md. -/
  asked    : Nat
  /-- Model's own: the open parameters of the block, never written. notes/assumptions/5.md. -/
  par      : Params
  deriving DecidableEq, Repr

/-- The two bytes of the completion record (30_encoding.md R85). -/
def State.completionRecord (s : State) : List Byte := [s.status.code.zeroExtend 8, s.value]

/-- The engine right after construction with these straps (10_state.md R40; 70_reset_and_hazards.md R190). The
registers the spec leaves unwritten hold 0 (DESIGN CHOICE, notes/assumptions/2.md, 3.md, 17.md). -/
def State.constructed (par : Params) (straps : Straps) : State where
  addr     := straps.addr
  cols     := straps.cols
  rows     := straps.rows
  charSize := straps.charSize
  df       := 0
  dc       := 0
  dm       := 0
  bl       := false
  phase    := .unpowered
  busy     := false
  upc      := 0
  busId    := 0
  status   := .ok
  value    := 0
  xlatch   := .unknown
  trace    := []
  port     := []
  answers  := []
  asked    := 0
  par      := par

/-- Construction, `new(address, columns, rows, charSize)`: a configuration with `ROWS` outside 1..4 is refused
(10_state.md R23; 70_reset_and_hazards.md R190). -/
def State.construct (par : Params) (straps : Straps) : Host.Outcome State Fault Refusal :=
  if Config.rowsSupported straps.rows then .next (State.constructed par straps) else .refused .rowsUnsupported

/-- The machine right after reset, at the default straps and parameters (notes/assumptions/4.md, 5.md). -/
def State.reset : State := State.constructed Params.default Straps.default

end Sys2Proof.Machine
end

