-- ==== Sys2Proof/Machine/Flags.lean ====
section
/-! DEFINITION. The values of the flag-merge register file (10_state.md R26 to R30). The engine has no condition
codes (R37): these are all the flag computations there are. -/

namespace Sys2Proof.Machine

open Sys2Proof.Config (CharSize Params)

/-- `BL_MASK` (00_scope.md R7): the backlight bit of every bus byte. -/
def blMask : Byte := 0x08

/-- `blbit(BL)` (10_state.md R30). -/
def blbit (bl : Bool) : Byte := if bl then blMask else 0x00

/-- The line-count flag: `LINES_2` if `ROWS > 1`, else `LINES_1` (40_init_sequencer.md R106). -/
def lineFlag (p : Params) (rows : Word) : Byte := if 1 < rows.toNat then p.lines2 else p.lines1

/-- The font flag: `DOTS_5x10` only when requested and `ROWS = 1` (40_init_sequencer.md R106). -/
def fontFlag (p : Params) (rows : Word) (charSize : CharSize) : Byte :=
  if charSize = .dots5x10 ∧ rows.toNat = 1 then p.dots5x10 else p.dots5x8

/-- The value INIT step 5 writes to `DF` (10_state.md R27; 40_init_sequencer.md R106). -/
def functionFlags (p : Params) (rows : Word) (charSize : CharSize) : Byte :=
  p.mode4Bit ||| lineFlag p rows ||| fontFlag p rows charSize

/-- The value INIT step 6 writes to `DC` (10_state.md R28; 40_init_sequencer.md R107). -/
def initialDisplayFlags (p : Params) : Byte := p.displayOn ||| p.cursorOff ||| p.blinkOff

/-- The value DISPLAY writes to `DC`: the `DISPLAY_ON` bit set (41_control_ops.md R124; 90_conflicts.md C1). -/
def displayFlagsOn (p : Params) (dc : Byte) : Byte := dc ||| p.displayOn

/-- The value NODISPLAY writes to `DC`: the `DISPLAY_ON` bit cleared (41_control_ops.md R125; 90_conflicts.md C1). -/
def displayFlagsOff (p : Params) (dc : Byte) : Byte := dc &&& ~~~p.displayOn

/-- The value INIT step 8 writes to `DM` (10_state.md R29; 40_init_sequencer.md R109). -/
def entryFlags (p : Params) : Byte := p.entryLeft ||| p.shiftDecrement

end Sys2Proof.Machine
end

