-- ==== Sys2Proof/Machine/Operands.lean ====
section
/-! DEFINITION. The constants the source fixes (00_scope.md R7) and what the engine computes from its operands: the
two halves of a byte (43_nibble_transport.md R153), the clamped row and the DDRAM address (41_control_ops.md R123),
the decimal text of a number (42_text_ops.md R142). -/

namespace Sys2Proof.Machine

open Sys2Proof.Config (Params)

/-- `NIB_MASK` (00_scope.md R7). -/
def nibMask : Byte := 0xF0

/-- `MODE_COMMAND` (00_scope.md R7). -/
def modeCommand : Byte := 0x00

/-- `NIB_IDLE << 4` (00_scope.md R7; 30_encoding.md R79). -/
def nibIdle : Byte := 0x30

/-- `NIB_4BIT << 4` (00_scope.md R7; 30_encoding.md R79). -/
def nib4Bit : Byte := 0x20

/-- `T_PULSE`: "minimum enable pulse width" (00_scope.md R7; 43_nibble_transport.md R151). -/
def tPulse : Micros := 1

/-- `T_SETTLE`: "minimum command-settle time before next transaction" (00_scope.md R7; R151). -/
def tSettle : Micros := 50

/-- `T_IDLE1` and `T_IDLE2` (00_scope.md R7; 40_init_sequencer.md R104). -/
def tIdleLong : Micros := 4500

/-- `T_IDLE3` (00_scope.md R7; 40_init_sequencer.md R104). -/
def tIdleShort : Micros := 150

/-- `T_CLEAR` (00_scope.md R7; 41_control_ops.md R121). -/
def tClear : Micros := 2000

/-- `T_HOME` (00_scope.md R7; 41_control_ops.md R122). -/
def tHome : Micros := 2000

/-- The high nibble, already in bits 7..4 (43_nibble_transport.md R153). -/
def highNibble (b : Byte) : Byte := b &&& nibMask

/-- The low nibble moved to bits 7..4 (43_nibble_transport.md R153). -/
def lowNibble (b : Byte) : Byte := (b <<< 4) &&& nibMask

/-- `ROWOFF[0..3]` (10_state.md R32; 20_memory.md R52). -/
def rowOff : Fin 4 → Byte
  | 0 => 0x00
  | 1 => 0x40
  | 2 => 0x14
  | 3 => 0x54

/-- `min(row, ROWS - 1)` (41_control_ops.md R123). The outer `min 3` changes nothing for `ROWS` in 1..4, the only
values an operation runs with (10_state.md R23). -/
def clampRow (rows : Word) (row : Byte) : Fin 4 :=
  ⟨min (min row.toNat (rows.toNat - 1)) 3, by omega⟩

/-- `a = ROWOFF[r] + col`, the 9-bit sum (41_control_ops.md R123; 92 D17). -/
def ddramAddress (rows : Word) (col row : Byte) : BitVec 9 :=
  (rowOff (clampRow rows row)).zeroExtend 9 + col.zeroExtend 9

/-- The byte `(SETDDRAMADDR | a)[7:0]` (30_encoding.md R78; 41_control_ops.md R123). -/
def setCursorByte (p : Params) (rows : Word) (col row : Byte) : Byte :=
  (p.setDdramAddr.zeroExtend 9 ||| ddramAddress rows col row).truncate 8

/-- The decimal digits of `m`, most significant first, with no leading zero; `fuel` bounds their number less one
(42_text_ops.md R142). -/
def decimalDigits : Nat → Nat → List Nat
  | 0, m => [m % 10]
  | fuel + 1, m => if m < 10 then [m] else decimalDigits fuel (m / 10) ++ [m % 10]

/-- The byte `0x30 + d` of a digit (42_text_ops.md R142). -/
def digitByte (d : Nat) : Byte := 0x30 + BitVec.ofNat 8 d

/-- The byte of the minus sign (42_text_ops.md R142). -/
def minusByte : Byte := 0x2D

/-- `dec(n)`: a minus sign if `n < 0`, then the digits of `|n|`, at most ten (42_text_ops.md R142). -/
def decimalText (n : Word) : List Byte :=
  (if n.toInt < 0 then [minusByte] else []) ++ (decimalDigits 9 n.toInt.natAbs).map digitByte

end Sys2Proof.Machine
end

