-- ==== Sys2Proof/Machine/Ops.lean ====
section
/-! DEFINITION. The operations every meaning is built from: the writes of one field, the micro-operations
(00_scope.md R5; 10_state.md R34), the abort on a `BusError` (60_exceptions.md R176), admission and refusal (R179),
completion (10_state.md R36). -/

namespace Sys2Proof.Machine

open Sys2Proof.Config (Answer Params)

/-! ### Writes of one register -/

/-- `PHASE <- p` (10_state.md R33). -/
def State.setPhase (p : Phase) (s : State) : State := { s with phase := p }

/-- `BUSID <- v` (10_state.md R35). -/
def State.setBusId (v : Byte) (s : State) : State := { s with busId := v }

/-- `BL <- b` (10_state.md R30). -/
def State.setBl (b : Bool) (s : State) : State := { s with bl := b }

/-- `DF <- v` (10_state.md R27). -/
def State.setDf (v : Byte) (s : State) : State := { s with df := v }

/-- `DC <- v` (10_state.md R28). -/
def State.setDc (v : Byte) (s : State) : State := { s with dc := v }

/-- `DM <- v` (10_state.md R29). -/
def State.setDm (v : Byte) (s : State) : State := { s with dm := v }

/-- The ghost `XLATCH` after a write (10_state.md R38). -/
def State.setLatch (x : XLatch) (s : State) : State := { s with xlatch := x }

/-- One more event in the trace (20_memory.md R65). -/
def State.emit (e : Event) (s : State) : State := { s with trace := s.trace ++ [e] }

/-- A micro-operation has completed: `UPC` advances (10_state.md R34). -/
def State.advance (s : State) : State := { s with upc := s.upc + 1 }

/-- One answer of the transport has been taken. -/
def State.takeAnswer (s : State) : State := { s with answers := s.answers.tail, asked := s.asked + 1 }

/-- The bytes left at the command port. -/
def State.setPort (bytes : List Byte) (s : State) : State := { s with port := bytes }

/-- An operation is accepted: `BUSY <- 1`, and `UPC` at its first micro-operation (10_state.md R34). -/
def State.accept (s : State) : State := { s with busy := true, upc := 0 }

/-- `complete(status, value)`: "deliver the completion record and return the engine to idle" (00_scope.md R12;
10_state.md R34, R36). -/
def State.complete (status : Status) (value : Byte) (s : State) : State :=
  { s with status := status, value := value, busy := false, trace := s.trace ++ [.done status value] }

/-! ### The transport's answer -/

/-- The answer to the next `Bind` or `BusWrite`: the scripted one, else the free value (00_scope.md R14). -/
def State.answer (s : State) : Answer :=
  match s.answers with
  | a :: _ => a
  | [] => Config.busAnswer s.asked

/-- The answer to the `k`-th next `Bind` or `BusWrite`, counting from 0. -/
def State.answerAt (s : State) (k : Nat) : Answer :=
  match s.answers[k]? with
  | some a => a
  | none => Config.busAnswer (s.asked + k)

/-! ### The ghost latch -/

/-- The ghost `XLATCH` after an acknowledged write: "the last bus byte the transport acknowledged" (10_state.md R38);
but after the first write since reset any byte (93 U3 beside R200): DEDUCED, notes/assumptions/10.md. -/
def XLatch.acked (v : Byte) : XLatch → XLatch
  | .unknown => .coldBoot
  | .coldBoot => .byte v
  | .byte _ => .byte v
  | .either _ _ => .byte v

/-- The ghost `XLATCH` after a write answered `BusError`: "either the old or the new byte" (10_state.md R38; 93 U10), where
93 U1 (inside INIT) and U2 (in any other operation) say any value: DESIGN CHOICE, notes/assumptions/23.md. -/
def XLatch.notAcked (v : Byte) (x : XLatch) : XLatch := .either v x

/-! ### Micro-operations -/

/-- The micro-operations: a register write, a `Bind`, an `expanderWrite`, a `Delay` (00_scope.md R5). -/
inductive MicroOp where
  | setPhase (p : Phase)
  | setBusId (v : Byte)
  | setBl (b : Bool)
  | setDf (v : Byte)
  | setDc (v : Byte)
  | setDm (v : Byte)
  | bind (id : Byte)
  | write (data : Byte)
  | delay (n : Micros)
  deriving DecidableEq, Repr

/-- How a list of micro-operations ends: all completed, or abandoned at a `BusError` (60_exceptions.md R176). -/
inductive Run where
  | completed (s : State)
  | stopped (s : State)
  deriving DecidableEq, Repr

/-- The state a run ends in. -/
def Run.state : Run → State
  | .completed s => s
  | .stopped s => s

/-- Whether a run met a `BusError`. -/
def Run.failed : Run → Bool
  | .completed _ => false
  | .stopped _ => true

/-- `Bind(id)`: the event with its answer; a `BusError` abandons the operation (40_init_sequencer.md R101). `XLATCH` stays
as it was, failed or not: DESIGN CHOICE, notes/assumptions/23.md. -/
def bindBus (id : Byte) (s : State) : Run :=
  match s.answer with
  | .ok => .completed (s.takeAnswer.emit (.bind id .ok)).advance
  | .busError => .stopped (s.takeAnswer.emit (.bind id .busError))

/-- `BusWrite(ADDR, v)`: the event with its answer, the ghost latch, and the abort on a `BusError`: "nothing is saved
and nothing is rolled back" (43_nibble_transport.md R150; 60_exceptions.md R176; 10_state.md R38). -/
def busWrite (v : Byte) (s : State) : Run :=
  match s.answer with
  | .ok => .completed ((s.takeAnswer.emit (.wr s.addr v .ok)).setLatch (s.xlatch.acked v)).advance
  | .busError => .stopped ((s.takeAnswer.emit (.wr s.addr v .busError)).setLatch (s.xlatch.notAcked v))

/-- One micro-operation, to completion (10_state.md R34). An `expanderWrite` ORs in the backlight bit at the moment
it is performed (43_nibble_transport.md R150). -/
def perform : MicroOp → State → Run
  | .setPhase p, s => .completed (s.setPhase p).advance
  | .setBusId v, s => .completed (s.setBusId v).advance
  | .setBl b, s => .completed (s.setBl b).advance
  | .setDf v, s => .completed (s.setDf v).advance
  | .setDc v, s => .completed (s.setDc v).advance
  | .setDm v, s => .completed (s.setDm v).advance
  | .bind id, s => bindBus id s
  | .write data, s => busWrite (data ||| blbit s.bl) s
  | .delay n, s => .completed (s.emit (.dly n)).advance

/-- The micro-operations "execute strictly in list order, each to completion" (10_state.md R34); after a `BusError`
"no later micro-operation of the operation in flight executes" (60_exceptions.md R176). -/
def runOps : List MicroOp → State → Run
  | [], s => .completed s
  | m :: ms, s =>
    match perform m s with
    | .completed s' => runOps ms s'
    | .stopped s' => .stopped s'

/-! ### Admission, refusal, completion -/

/-- `PHASE = Ready`, what every operation but INIT needs (60_exceptions.md R179). -/
def State.isReady (s : State) : Bool := s.phase = .ready

/-- Admission and refusal, decided before any event (60_exceptions.md R175, R179). An admitted operation runs from
the accepting state; one that is not "changes no state, emits no `Bind`, `Wr` or `Dly` event, and completes with
`STATUS = REFUSED, VALUE = 0`". A busy engine accepts no packet (10_state.md R34), and a configuration with `ROWS`
outside 1..4 has no meaning (10_state.md R23). -/
def admission (admitted : Bool) (s : State) (body : State → State) : Host.Outcome State Fault Refusal :=
  if s.busy then .fault .stuckBusy
  else if Config.rowsSupported s.rows then .next (if admitted then body s.accept else s.complete .refused 0)
  else .refused .rowsUnsupported

/-- The end of an operation that propagates a `BusError`: `complete(OK, value)`, or `complete(BUSERR, 0)`
(60_exceptions.md R173, R176). -/
def propagate (value : Byte) : Run → State
  | .completed s => s.complete .ok value
  | .stopped s => s.complete .busErr 0

/-- A packet whose byte 0 is reserved is never admitted (30_encoding.md R83; 60_exceptions.md R179). -/
def execReserved (s : State) : Host.Outcome State Fault Refusal := admission false s id

end Sys2Proof.Machine
end

