-- ==== Sys2Proof/Machine/Nibble.lean ====
section
/-! DEFINITION. The nibble sequencer: the internal procedures as lists of micro-operations, and CMD and DATA
(43_nibble_transport.md R150 to R155). -/

namespace Sys2Proof.Machine

open Sys2Proof.Config (Params)

/-- `expanderWrite(data)`, "the sole point of contact with the external transport" (43_nibble_transport.md R150). -/
def expanderWrite (data : Byte) : List MicroOp := [.write data]

/-- `pulseEnable(value)` (43_nibble_transport.md R151). -/
def pulseEnable (p : Params) (value : Byte) : List MicroOp :=
  expanderWrite (value ||| p.enMask) ++ [.delay tPulse] ++ expanderWrite (value &&& ~~~p.enMask) ++ [.delay tSettle]

/-- `writeNibble(nibbleByte, mode)` (43_nibble_transport.md R152). -/
def writeNibble (p : Params) (nibbleByte mode : Byte) : List MicroOp :=
  expanderWrite (nibbleByte ||| mode) ++ pulseEnable p (nibbleByte ||| mode)

/-- `dispatch(b, mode)`: high nibble first (43_nibble_transport.md R153; 20_memory.md R55). -/
def dispatch (p : Params) (b mode : Byte) : List MicroOp :=
  writeNibble p (highNibble b) mode ++ writeNibble p (lowNibble b) mode

/-- `sendCommand(b)` (43_nibble_transport.md R154). -/
def sendCommand (p : Params) (b : Byte) : List MicroOp := dispatch p b modeCommand

/-- `sendData(b)`; its return value 1 is added where it is used (43_nibble_transport.md R155). -/
def sendData (p : Params) (b : Byte) : List MicroOp := dispatch p b p.rsMask

/-- CMD `b`: `sendCommand(b); complete(OK, 0)` (43_nibble_transport.md R154). -/
def execCmd (b : Byte) (s : State) : Host.Outcome State Fault Refusal :=
  admission s.isReady s fun s => propagate 0 (runOps (sendCommand s.par b) s)

/-- DATA `b`: `r <- sendData(b); complete(OK, r)`, `r = 1` (43_nibble_transport.md R155). -/
def execData (b : Byte) (s : State) : Host.Outcome State Fault Refusal :=
  admission s.isReady s fun s => propagate 1 (runOps (sendData s.par b) s)

end Sys2Proof.Machine
end

