-- ==== Sys2Proof/Machine/Control.lean ====
section
/-! DEFINITION. The seven control operations (41_control_ops.md R120 to R127). Each register write precedes its
bus writes, so that it survives their failure (R120; 60_exceptions.md R176). -/

namespace Sys2Proof.Machine

/-- CLEAR: `sendCommand(CLEARDISPLAY); Delay(2000)` (41_control_ops.md R121). -/
def clearOps (s : State) : List MicroOp := sendCommand s.par s.par.clearDisplay ++ [.delay tClear]

/-- HOME: `sendCommand(RETURNHOME); Delay(2000)` (41_control_ops.md R122). -/
def homeOps (s : State) : List MicroOp := sendCommand s.par s.par.returnHome ++ [.delay tHome]

/-- SETCURSOR `col, row`: `sendCommand((SETDDRAMADDR | a)[7:0])` (41_control_ops.md R123). -/
def setcursorOps (col row : Byte) (s : State) : List MicroOp := sendCommand s.par (setCursorByte s.par s.rows col row)

/-- DISPLAY: `DC <- DC | DISPLAY_ON; sendCommand(DISPLAYCONTROL | DC)` (41_control_ops.md R124). -/
def displayOps (s : State) : List MicroOp :=
  [.setDc (displayFlagsOn s.par s.dc)] ++ sendCommand s.par (s.par.displayControl ||| displayFlagsOn s.par s.dc)

/-- NODISPLAY: `DC <- DC & ~DISPLAY_ON; sendCommand(DISPLAYCONTROL | DC)` (41_control_ops.md R125). -/
def nodisplayOps (s : State) : List MicroOp :=
  [.setDc (displayFlagsOff s.par s.dc)] ++ sendCommand s.par (s.par.displayControl ||| displayFlagsOff s.par s.dc)

/-- BACKLIGHT: `BL <- 1; expanderWrite(0x00)` (41_control_ops.md R126). -/
def backlightOps : List MicroOp := [.setBl true] ++ expanderWrite 0x00

/-- NOBACKLIGHT: `BL <- 0; expanderWrite(0x00)` (41_control_ops.md R127). -/
def nobacklightOps : List MicroOp := [.setBl false] ++ expanderWrite 0x00

/-- CLEAR (41_control_ops.md R121). -/
def execClear (s : State) : Host.Outcome State Fault Refusal :=
  admission s.isReady s fun s => propagate 0 (runOps (clearOps s) s)

/-- HOME (41_control_ops.md R122). -/
def execHome (s : State) : Host.Outcome State Fault Refusal :=
  admission s.isReady s fun s => propagate 0 (runOps (homeOps s) s)

/-- SETCURSOR `col, row` (41_control_ops.md R123). -/
def execSetcursor (col row : Byte) (s : State) : Host.Outcome State Fault Refusal :=
  admission s.isReady s fun s => propagate 0 (runOps (setcursorOps col row s) s)

/-- DISPLAY (41_control_ops.md R124). -/
def execDisplay (s : State) : Host.Outcome State Fault Refusal :=
  admission s.isReady s fun s => propagate 0 (runOps (displayOps s) s)

/-- NODISPLAY (41_control_ops.md R125). -/
def execNodisplay (s : State) : Host.Outcome State Fault Refusal :=
  admission s.isReady s fun s => propagate 0 (runOps (nodisplayOps s) s)

/-- BACKLIGHT (41_control_ops.md R126). -/
def execBacklight (s : State) : Host.Outcome State Fault Refusal :=
  admission s.isReady s fun s => propagate 0 (runOps backlightOps s)

/-- NOBACKLIGHT (41_control_ops.md R127). -/
def execNobacklight (s : State) : Host.Outcome State Fault Refusal :=
  admission s.isReady s fun s => propagate 0 (runOps nobacklightOps s)

end Sys2Proof.Machine
end

