-- ==== Sys2Proof/Machine/Init.lean ====
section
/-! DEFINITION. The initialization FSM: one definition per step of 40_init_sequencer.md R101 to R110, then INIT (R100). -/

namespace Sys2Proof.Machine

open Sys2Proof.Config (CharSize Params)

/-- Step 0, bind (R101). -/
def initBind (busId : Byte) : List MicroOp := [.setPhase .unpowered, .setBusId busId, .bind busId]

/-- Step 1, Unpowered to PowerSettle (R102). -/
def initPowerSettle (p : Params) : List MicroOp := [.setPhase .powerSettle, .delay p.tPower]

/-- The backlight state INIT asserts at step 2: a named point of trust (R103; 92 D15). notes/assumptions/19.md. -/
def initBacklight : Bool := true

/-- Step 2, backlight assert, still in PowerSettle (R103). -/
def initBacklightAssert (p : Params) : List MicroOp :=
  [.setBl initBacklight] ++ expanderWrite 0x00 ++ [.delay p.tBlSettle]

/-- Step 3, ForceIdle: three unconditional single nibbles (R104; 90_conflicts.md C10). -/
def initForceIdle (p : Params) : List MicroOp :=
  ([.setPhase .forceIdle1] ++ writeNibble p nibIdle modeCommand ++ [.delay tIdleLong])
  ++ ([.setPhase .forceIdle2] ++ writeNibble p nibIdle modeCommand ++ [.delay tIdleLong])
  ++ ([.setPhase .forceIdle3] ++ writeNibble p nibIdle modeCommand ++ [.delay tIdleShort])

/-- Step 4, FourBitLatch (R105). -/
def initFourBitLatch (p : Params) : List MicroOp := [.setPhase .fourBitLatch] ++ writeNibble p nib4Bit modeCommand

/-- Step 5, FunctionSet (R106). -/
def initFunctionSet (p : Params) (rows : Word) (charSize : CharSize) : List MicroOp :=
  [.setPhase .functionSet, .setDf (functionFlags p rows charSize)]
  ++ sendCommand p (p.functionSet ||| functionFlags p rows charSize)

/-- Step 6, DisplayOn (R107). -/
def initDisplayOn (p : Params) : List MicroOp :=
  [.setPhase .displayOn, .setDc (initialDisplayFlags p)] ++ sendCommand p (p.displayControl ||| initialDisplayFlags p)

/-- Step 7, Cleared (R108). -/
def initCleared (p : Params) : List MicroOp :=
  [.setPhase .cleared] ++ sendCommand p p.clearDisplay ++ [.delay tClear]

/-- Step 8, EntryModeSet (R109). -/
def initEntryMode (p : Params) : List MicroOp :=
  [.setPhase .entryModeSet, .setDm (entryFlags p)] ++ sendCommand p (p.entryModeSet ||| entryFlags p)

/-- Step 9, Homed (R110). -/
def initHomed (p : Params) : List MicroOp :=
  [.setPhase .homed] ++ sendCommand p p.returnHome ++ [.delay tHome]

/-- The steps of INIT in their order, then `PHASE <- Ready` (R100). -/
def initOps (busId : Byte) (p : Params) (rows : Word) (charSize : CharSize) : List MicroOp :=
  initBind busId ++ initPowerSettle p ++ initBacklightAssert p ++ initForceIdle p ++ initFourBitLatch p
  ++ initFunctionSet p rows charSize ++ initDisplayOn p ++ initCleared p ++ initEntryMode p ++ initHomed p
  ++ [.setPhase .ready]

/-- INIT `busId`: admitted "whenever `BUSY = 0`, in every `PHASE`" (R100, R114; 60_exceptions.md R179). -/
def execInit (busId : Byte) (s : State) : Host.Outcome State Fault Refusal :=
  admission true s fun s => propagate 0 (runOps (initOps busId s.par s.rows s.charSize) s)

end Sys2Proof.Machine
end

