-- ==== Sys2Proof/Machine/Text.lean ====
section
/-! DEFINITION. The text operations, the only ones that absorb a `BusError` (42_text_ops.md R140 to R143). -/

namespace Sys2Proof.Machine

/-- The loop of PRINTS: "index order, first byte first"; a byte counts once all six of its bus writes were
acknowledged; a `BusError` ends it with `complete(OK, count)`, "error absorbed, not propagated" (42_text_ops.md R140). -/
def printLoop : List Byte → Nat → State → State
  | [], count, s => s.complete .ok (BitVec.ofNat 8 count)
  | b :: bs, count, s =>
    match runOps (sendData s.par b) s with
    | .completed s' => printLoop bs (count + 1) s'
    | .stopped s' => s'.complete .ok (BitVec.ofNat 8 count)

/-- The text `t` printed by an admitted PRINTS or PRINTN (42_text_ops.md R140, R141). -/
def printText (t : List Byte) (s : State) : Host.Outcome State Fault Refusal :=
  admission s.isReady s fun s => printLoop t 0 s

/-- PRINTS `len, t` (42_text_ops.md R140). -/
def execPrints (t : List Byte) (s : State) : Host.Outcome State Fault Refusal := printText t s

/-- PRINTN `n`: "formats n as its canonical decimal text and delegates to `printString`" (42_text_ops.md R141). -/
def execPrintn (n : Word) (s : State) : Host.Outcome State Fault Refusal := printText (decimalText n) s

end Sys2Proof.Machine
end

