-- ==== Sys2Proof/Syntax.lean ====
section
/-! DEFINITION. The twelve operations of the command port: 30_encoding.md R82, spec/opcode_table.json. -/

namespace Sys2Proof

/-- One constructor per row of the opcode table, in its order. -/
inductive Instr where
  /-- INIT `busId` (R100). -/
  | init (busId : Byte)
  /-- CLEAR (R121). -/
  | clear
  /-- HOME (R122). -/
  | home
  /-- SETCURSOR `col, row` (R123). -/
  | setcursor (col row : Byte)
  /-- DISPLAY (R124). -/
  | display
  /-- NODISPLAY (R125). -/
  | nodisplay
  /-- BACKLIGHT (R126). -/
  | backlight
  /-- NOBACKLIGHT (R127). -/
  | nobacklight
  /-- PRINTS `len, s` (R140); `len` is the length of `s`. -/
  | prints (s : List Byte)
  /-- PRINTN `n` (R141), `n` a two's-complement 32-bit integer (R81, R84). -/
  | printn (n : Word)
  /-- CMD `b` (R154). -/
  | cmd (b : Byte)
  /-- DATA `b` (R155). -/
  | data (b : Byte)
  deriving DecidableEq, Repr

/-- Byte 0 of an operation's packet (30_encoding.md R82). -/
def Instr.opcode : Instr → Byte
  | .init _ => 0x01
  | .clear => 0x02
  | .home => 0x03
  | .setcursor _ _ => 0x04
  | .display => 0x05
  | .nodisplay => 0x06
  | .backlight => 0x07
  | .nobacklight => 0x08
  | .prints _ => 0x09
  | .printn _ => 0x0A
  | .cmd _ => 0x0B
  | .data _ => 0x0C

end Sys2Proof
end

