-- ==== Sys2Proof/Machine/Dispatch.lean ====
section
/-! DEFINITION. One arm per operation of the opcode table. -/

namespace Sys2Proof.Machine

def exec (i : Instr) (s : State) : Host.Outcome State Fault Refusal :=
  match i with
  | .init busId => Sys2Proof.Machine.execInit busId s
  | .clear => Sys2Proof.Machine.execClear s
  | .home => Sys2Proof.Machine.execHome s
  | .setcursor col row => Sys2Proof.Machine.execSetcursor col row s
  | .display => Sys2Proof.Machine.execDisplay s
  | .nodisplay => Sys2Proof.Machine.execNodisplay s
  | .backlight => Sys2Proof.Machine.execBacklight s
  | .nobacklight => Sys2Proof.Machine.execNobacklight s
  | .prints t => Sys2Proof.Machine.execPrints t s
  | .printn n => Sys2Proof.Machine.execPrintn n s
  | .cmd b => Sys2Proof.Machine.execCmd b s
  | .data b => Sys2Proof.Machine.execData b s

end Sys2Proof.Machine
end

