-- ==== Sys2Proof/WellFormed.lean ====
section
/-! DEFINITION. Which instructions are packets: the only operand bound that the operand types do not carry is the
length of a string, "`len` in 0..255" (30_encoding.md R81; 42_text_ops.md R140). -/

namespace Sys2Proof

/-- The instruction has a packet: a PRINTS string fits its length byte (R81). -/
def Instr.wf : Instr → Bool
  | .prints s => s.length ≤ 255
  | .init _ => true
  | .clear => true
  | .home => true
  | .setcursor _ _ => true
  | .display => true
  | .nodisplay => true
  | .backlight => true
  | .nobacklight => true
  | .printn _ => true
  | .cmd _ => true
  | .data _ => true

end Sys2Proof
end

