-- ==== Sys2Proof/Decode.lean ====
section
/-! DEFINITION. The command packet's decoder, total on every sequence of bytes (30_encoding.md R80 to R89), and after
it the encoder written from the same tables (R81, R82). -/

namespace Sys2Proof

/-- What the decoder reads from the front of the bytes at the command port. -/
inductive Decoded where
  /-- A whole packet, and the bytes that "belong to the next packet" (R89). -/
  | packet (i : Instr) (rest : List Byte)
  /-- Byte 0 is a reserved opcode; it alone is consumed (R83). -/
  | reserved (opcode : Byte) (rest : List Byte)
  /-- "A packet that ends before its format's length is not a packet" (R89); also no byte at all. -/
  | incomplete
  deriving DecidableEq, Repr

/-- Format N: `opcode` (R81). -/
def decodeN (i : Instr) (rest : List Byte) : Decoded := .packet i rest

/-- Format B: `opcode, imm8` (R81). -/
def decodeB (mk : Byte → Instr) : List Byte → Decoded
  | b :: rest => .packet (mk b) rest
  | [] => .incomplete

/-- Format CR: `opcode, col8, row8` (R81). -/
def decodeCR (mk : Byte → Byte → Instr) : List Byte → Decoded
  | col :: row :: rest => .packet (mk col row) rest
  | _ => .incomplete

/-- Format S: `opcode, len8, s[0], ..., s[len-1]` (R81, R88). -/
def decodeS (mk : List Byte → Instr) : List Byte → Decoded
  | len :: rest =>
    if len.toNat ≤ rest.length then .packet (mk (rest.take len.toNat)) (rest.drop len.toNat) else .incomplete
  | [] => .incomplete

/-- Format I: `opcode, n[31:24], n[23:16], n[15:8], n[7:0]`, most significant byte first (R80, R81, R84). -/
def decodeI (mk : Word → Instr) : List Byte → Decoded
  | b3 :: b2 :: b1 :: b0 :: rest => .packet (mk (b3 ++ b2 ++ b1 ++ b0)) rest
  | _ => .incomplete

/-- The decoder: "read byte 0; look up the format; for S read byte 1; read the rest" (R88), over the opcode map
of R82; every other opcode is reserved (R83). -/
def decode : List Byte → Decoded
  | [] => .incomplete
  | op :: rest =>
    match op.toNat with
    | 0x01 => decodeB .init rest
    | 0x02 => decodeN .clear rest
    | 0x03 => decodeN .home rest
    | 0x04 => decodeCR .setcursor rest
    | 0x05 => decodeN .display rest
    | 0x06 => decodeN .nodisplay rest
    | 0x07 => decodeN .backlight rest
    | 0x08 => decodeN .nobacklight rest
    | 0x09 => decodeS .prints rest
    | 0x0A => decodeI .printn rest
    | 0x0B => decodeB .cmd rest
    | 0x0C => decodeB .data rest
    | _ => .reserved op rest

/-- The bytes of a 32-bit operand, most significant first (R80, R81). -/
def wordBytes (n : Word) : List Byte :=
  [n.extractLsb' 24 8, n.extractLsb' 16 8, n.extractLsb' 8 8, n.extractLsb' 0 8]

/-- The bytes after the opcode (R81). -/
def encodeOperands : Instr → List Byte
  | .init busId => [busId]
  | .clear => []
  | .home => []
  | .setcursor col row => [col, row]
  | .display => []
  | .nodisplay => []
  | .backlight => []
  | .nobacklight => []
  | .prints s => BitVec.ofNat 8 s.length :: s
  | .printn n => wordBytes n
  | .cmd b => [b]
  | .data b => [b]

/-- The packet of an instruction: its opcode, then its operands (R80). -/
def encode (i : Instr) : List Byte := i.opcode :: encodeOperands i

/-- The longest packet: PRINTS with 255 bytes (R81). -/
def longestPacket : Nat := 257

/-- The first `k` bytes of a word numbered as spec/opcode_table.json numbers it: byte 0 of the packet in bits 7..0,
byte 1 in bits 15..8, and so on. -/
def lowBytes : Nat → Nat → List Byte
  | 0, _ => []
  | k + 1, w => BitVec.ofNat 8 w :: lowBytes k (w / 256)

/-- The packet bytes of a table word of `nbits` bits, zero above them up to the longest packet. -/
def tableBytes (nbits w : Nat) : List Byte :=
  lowBytes (nbits / 8) w ++ List.replicate (longestPacket - nbits / 8) 0

/-- The one packet at the front of some bytes, without the bytes after it. -/
def firstPacket (bytes : List Byte) : List Byte :=
  match decode bytes with
  | .packet _ rest => bytes.take (bytes.length - rest.length)
  | .reserved op _ => [op]
  | .incomplete => bytes

/-- The instruction the decoder reads from a table word; none where it reads a reserved opcode. -/
def decodeTableWord (nbits w : Nat) : Option Instr :=
  match decode (tableBytes nbits w) with
  | .packet i _ => some i
  | .reserved _ _ => none
  | .incomplete => none

end Sys2Proof
end

