-- ==== Sys2Proof/Machine/Fetch.lean ====
section
/-! DEFINITION. Taking a packet from the command port (30_encoding.md R80, R83, R88, R89; 20_memory.md R64). -/

namespace Sys2Proof.Machine

/-- What the engine finds at its command port. -/
inductive Fetched where
  /-- `BUSY = 1`: no packet is accepted (10_state.md R34). -/
  | busy
  /-- No whole packet: nothing is accepted (30_encoding.md R89). -/
  | none
  /-- A reserved opcode, consumed alone (30_encoding.md R83). -/
  | reserved (s : State)
  /-- An operation; its packet has been consumed. -/
  | operation (i : Instr) (s : State)
  deriving DecidableEq, Repr

/-- The packet at the front of the command port, "consumed once from the command port" (20_memory.md R64). -/
def fetch (s : State) : Fetched :=
  if s.busy then .busy
  else
    match decode s.port with
    | .packet i rest => .operation i (s.setPort rest)
    | .reserved _ rest => .reserved (s.setPort rest)
    | .incomplete => .none

end Sys2Proof.Machine
end

