-- ==== Sys2Proof/Machine/Step.lean ====
section
/-! DEFINITION. One step: the operation at the command port, as one atomic step (10_state.md R34; 92 D8). -/

namespace Sys2Proof.Machine

/-- One step. With no whole packet at the port the engine "does nothing" (30_encoding.md R89) and "starts nothing by
itself" (20_memory.md R68): the state stays. -/
def step (s : State) : Host.Outcome State Fault Refusal :=
  match fetch s with
  | .busy => .fault .stuckBusy
  | .none => .next s
  | .reserved s' => execReserved s'
  | .operation i s' => exec i s'

/-- `s` with the host presenting, at the command port, exactly the packet of a table word (see `tableBytes`).
notes/assumptions/14.md. -/
def State.withFetchWord (s : State) (nbits w : Nat) : State := s.setPort (firstPacket (tableBytes nbits w))

end Sys2Proof.Machine
end

