-- ==== Sys2Proof/Machine/Observe.lean ====
section
/-! DEFINITION. What can be read off bus bytes and off the event trace: the lines of a bus byte (30_encoding.md R71),
the latch and backlight observations (20_memory.md R66, R67), the ghost latch (10_state.md R38), fault-freedom
(60_exceptions.md R176). No step reads any of these. -/

namespace Sys2Proof.Machine

open Sys2Proof.Config (Params)

/-! ### The lines of a bus byte -/

/-- `NIB`, bits 7..4 (30_encoding.md R71). -/
def nibbleLines (v : Byte) : Nibble := v.extractLsb' 4 4

/-- `BLT`, bit 3 (30_encoding.md R71; 20_memory.md R67). -/
def backlightLine (v : Byte) : Bool := v.getLsbD 3

/-- `EN`: `E(v) = (v & EN_MASK) != 0` (20_memory.md R66). -/
def enableLine (p : Params) (v : Byte) : Bool := v &&& p.enMask != 0

/-- `RS`: 0 for a command, 1 for data (30_encoding.md R72). -/
def selectLine (p : Params) (v : Byte) : Bool := v &&& p.rsMask != 0

/-- `RW` (30_encoding.md R71, R72). -/
def readLine (p : Params) (v : Byte) : Bool := v &&& p.rwMask != 0

/-! ### The ghost latch and the backlight -/

/-- The ghost `XLATCH` after one event (10_state.md R38). -/
def XLatch.after (x : XLatch) : Event → XLatch
  | .wr _ v .ok => x.acked v
  | .wr _ v .busError => x.notAcked v
  | .bind _ _ => x
  | .dly _ => x
  | .done _ _ => x

/-- The ghost `XLATCH` at the end of a trace (10_state.md R38). -/
def latchOf (trace : List Event) : XLatch := trace.foldl XLatch.after .unknown

/-- The bytes that the lines may carry (10_state.md R38; 93 U3, U10, U13). -/
def XLatch.mayBe : XLatch → Byte → Bool
  | .unknown, _ => true
  | .coldBoot, _ => true
  | .byte v, w => v == w
  | .either new old, w => new == w || old.mayBe w

/-- The backlight line, where the byte on the lines is certain (10_state.md R38). -/
def XLatch.backlight : XLatch → Option Bool
  | .byte v => some (backlightLine v)
  | .unknown => none
  | .coldBoot => none
  | .either _ _ => none

/-- The backlight observation as 20_memory.md R67 words it: "after any acknowledged write" bit 3 of that byte; none
before the first write and after a failed one. What U3 leaves open of the first write is in `XLatch.backlight`. -/
def backlightObservation (trace : List Event) : Option Bool :=
  trace.foldl (fun line e =>
    match e with
    | .wr _ v .ok => some (backlightLine v)
    | .wr _ _ .busError => none
    | .bind _ _ => line
    | .dly _ => line
    | .done _ _ => line) none

/-! ### The latch observation -/

/-- A nibble with the register it is for: `(rs, nib)` (20_memory.md R66). -/
structure Latched where
  rs  : Bool
  nib : Nibble
  deriving DecidableEq, Repr

/-- One entry of the latch observation. notes/assumptions/18.md. -/
inductive LatchRecord where
  /-- A `Bind`: an INIT starts at its step 0, and its four single nibbles come next (40_init_sequencer.md R101 to R105;
  20_memory.md R55). -/
  | restart
  /-- An acknowledged falling edge: this nibble was latched (20_memory.md R66). -/
  | latched (l : Latched)
  /-- A falling edge across a failed write "may or may not have latched the nibble" (20_memory.md R66): at most the
  nibbles listed. -/
  | uncertain (candidates : List Latched)
  /-- At the end of the events: a failed write with no acknowledged write without the enable bit after it, so "the
  observation is undefined" (20_memory.md R66); at most the nibbles listed may have been latched so far. -/
  | undefined (candidates : List Latched)
  deriving DecidableEq, Repr

/-- What the observer knows of the lines between two writes. -/
inductive Lines where
  /-- No write yet. -/
  | unknown
  /-- The last write was acknowledged and the observation is defined. -/
  | byte (v : Byte)
  /-- Since a failed write, no acknowledged write without the enable bit: the bytes that may have been on the lines. -/
  | gap (vs : List Byte)
  deriving DecidableEq, Repr

/-- `(rs, nib) = ((p & RS_MASK) != 0, p[7:4])` (20_memory.md R66). -/
def latchedFrom (p : Params) (v : Byte) : Latched := ⟨selectLine p v, nibbleLines v⟩

/-- The nibbles that a falling edge from one of these bytes would latch. -/
def candidates (p : Params) (vs : List Byte) : List Latched := (vs.filter (enableLine p)).map (latchedFrom p)

/-- The record of a resolved gap: none if no byte in it had the enable bit. -/
def gapRecord (p : Params) (vs : List Byte) : List LatchRecord :=
  match candidates p vs with
  | [] => []
  | c :: cs => [.uncertain (c :: cs)]

/-- The lines after an acknowledged write, and what it shows (20_memory.md R66). -/
def observeAcked (p : Params) (v : Byte) : Lines → Lines × List LatchRecord
  | .unknown => (.byte v, [])
  | .byte u => (.byte v, if enableLine p u && !enableLine p v then [.latched (latchedFrom p u)] else [])
  | .gap vs => if enableLine p v then (.gap (vs ++ [v]), []) else (.byte v, gapRecord p vs)

/-- A failed write leaves the lines unknown (20_memory.md R66; 10_state.md R38). -/
def observeFailed (v : Byte) : Lines → Lines
  | .unknown => .gap [v]
  | .byte u => .gap [u, v]
  | .gap vs => .gap (vs ++ [v])

/-- The observer of a trace: what it knows of the lines, and its records so far. -/
structure Observer where
  lines   : Lines
  records : List LatchRecord
  deriving DecidableEq, Repr

/-- The observer after one event (20_memory.md R66). -/
def Observer.after (p : Params) (o : Observer) : Event → Observer
  | .wr _ v .ok => ⟨(observeAcked p v o.lines).1, o.records ++ (observeAcked p v o.lines).2⟩
  | .wr _ v .busError => ⟨observeFailed v o.lines, o.records⟩
  | .bind _ _ => ⟨o.lines, o.records ++ [.restart]⟩
  | .dly _ => o
  | .done _ _ => o

/-- The observer after some events, from no knowledge of the lines. -/
def observe (p : Params) (es : List Event) : Observer := es.foldl (Observer.after p) ⟨.unknown, []⟩

/-- What the end of the events leaves open. -/
def openRecord (p : Params) : Lines → List LatchRecord
  | .unknown => []
  | .byte _ => []
  | .gap vs => [.undefined (candidates p vs)]

/-- The latch observation of a trace, or of the events of one operation (20_memory.md R66). -/
def latchObservation (p : Params) (es : List Event) : List LatchRecord :=
  (observe p es).records ++ openRecord p (observe p es).lines

/-! ### The bytes delivered -/

/-- How the next latched nibble is to be read. -/
inductive Pairing where
  /-- Nothing is claimed until the next INIT: before the first one, or once the pairs are lost (20_memory.md R66;
  70_reset_and_hazards.md R203). -/
  | lost
  /-- Inside INIT: this many of its four single nibbles are still to come, the last one FourBitLatch's
  (20_memory.md R55; 40_init_sequencer.md R104, R105). -/
  | singles (left : Nat)
  /-- A high nibble comes next. -/
  | high
  /-- The low nibble of this high one comes next. -/
  | low (h : Latched)
  deriving DecidableEq, Repr

/-- The bytes delivered so far, each with its register, and how the next nibble is to be read. -/
structure Delivery where
  pairing : Pairing
  bytes   : List (Bool × Byte)
  deriving DecidableEq, Repr

/-- One more nibble certainly latched. "After FourBitLatch, consecutive latched nibbles pair up, high first, into
bytes": `(rs, h), (rs, l)` is the byte `{h, l}` written to the register that `rs` selects (20_memory.md R66). -/
def Delivery.nibble (d : Delivery) (l : Latched) : Delivery :=
  match d.pairing with
  | .lost => d
  | .singles (n + 2) => ⟨.singles (n + 1), d.bytes⟩
  | .singles _ => ⟨.high, d.bytes⟩
  | .high => ⟨.low l, d.bytes⟩
  | .low h => if h.rs = l.rs then ⟨.high, d.bytes ++ [(h.rs, h.nib ++ l.nib)]⟩ else ⟨.lost, d.bytes⟩

/-- A nibble that may or may not have been latched: the pairs are lost (70_reset_and_hazards.md R203), but for INIT's
single nibbles, which "force the controller out of any partial 8-bit state" (40_init_sequencer.md R104). -/
def Delivery.doubt (d : Delivery) : Delivery :=
  match d.pairing with
  | .singles n => ⟨.singles n, d.bytes⟩
  | .lost => ⟨.lost, d.bytes⟩
  | .high => ⟨.lost, d.bytes⟩
  | .low _ => ⟨.lost, d.bytes⟩

/-- The delivery after one record; a `Bind` starts the four single nibbles of an INIT again. -/
def Delivery.after (d : Delivery) : LatchRecord → Delivery
  | .restart => ⟨.singles 4, d.bytes⟩
  | .latched l => d.nibble l
  | .uncertain _ => d.doubt
  | .undefined _ => d.doubt

/-- The bytes that records deliver, when the nibble before them leaves the reading `start` (20_memory.md R66). -/
def deliveredBytes (start : Pairing) (rs : List LatchRecord) : List (Bool × Byte) :=
  (rs.foldl Delivery.after ⟨start, []⟩).bytes

/-- The bytes that a whole trace since reset delivers: none before its first INIT's FourBitLatch (20_memory.md R66). -/
def delivered (p : Params) (trace : List Event) : List (Bool × Byte) := deliveredBytes .lost (latchObservation p trace)

/-- How the next latched nibble is to be read at the end of a trace. -/
def pairingOf (p : Params) (trace : List Event) : Pairing :=
  ((latchObservation p trace).foldl Delivery.after ⟨.lost, []⟩).pairing

/-! ### Fault-freedom -/

/-- Neither a `Wr!`, a failed `Bind`, nor a `Done` with `STATUS != OK` (60_exceptions.md R176). -/
def Event.faultFree : Event → Bool
  | .bind _ a => a = .ok
  | .wr _ _ a => a = .ok
  | .dly _ => true
  | .done st _ => st = .ok

/-- "a trace is fault-free when it contains no `Wr!`, no failed `Bind` and no `Done` with `STATUS != OK`"
(60_exceptions.md R176). -/
def faultFree (trace : List Event) : Bool := trace.all Event.faultFree

end Sys2Proof.Machine
end

