-- ==== Sys2Proof/Safety.lean ====
section
/-! DEFINITION. The terms claims are stated in: when an operation may run, what the transport answers, the event
lists of the rules with their cut at the first `BusError` (60_exceptions.md R176), and the invariant of the machine. -/

namespace Sys2Proof.Safety

open Sys2Proof.Config (Answer Params CharSize)
open Sys2Proof.Machine

/-! ### When an operation may run -/

/-- The engine is at rest (20_memory.md R68) in a configuration that exists (10_state.md R23). -/
abbrev Idle (s : State) : Prop := s.busy = false ∧ Config.rowsSupported s.rows = true

/-- What admits an operation other than INIT (60_exceptions.md R179). -/
abbrev Ready (s : State) : Prop := Idle s ∧ s.phase = .ready

/-- The next `n` questions to the transport are answered `ok`. -/
abbrev Acks (s : State) (n : Nat) : Prop := ∀ k, k < n → s.answerAt k = .ok

/-- The first `BusError` among the next answers is the one to question `j`, counting from 0. -/
abbrev FailsAt (s : State) (j : Nat) : Prop := Acks s j ∧ s.answerAt j = .busError

/-! ### Event lists, before and after their answers -/

/-- An event an operation is to produce, not yet answered. -/
inductive Want where
  | bind (id : Byte)
  | wr (v : Byte)
  | dly (n : Micros)
  deriving DecidableEq, Repr

/-- The event with the answer `ok` at the address `addr`. -/
def Want.acked (addr : Byte) : Want → Event
  | .bind id => .bind id .ok
  | .wr v => .wr addr v .ok
  | .dly n => .dly n

/-- The events that happen of a wanted list, the next answers being `ans k`, `ans (k+1)`, ...: "No event follows a
`Wr!` within the same operation" (60_exceptions.md R176). -/
def play (addr : Byte) (ans : Nat → Answer) : Nat → List Want → List Event
  | _, [] => []
  | k, .dly n :: ws => .dly n :: play addr ans k ws
  | k, .wr v :: ws =>
    match ans k with
    | .ok => .wr addr v .ok :: play addr ans (k + 1) ws
    | .busError => [.wr addr v .busError]
  | k, .bind id :: ws =>
    match ans k with
    | .ok => .bind id .ok :: play addr ans (k + 1) ws
    | .busError => [.bind id .busError]

/-- The event is a question to the transport. -/
def Want.asks : Want → Bool
  | .bind _ => true
  | .wr _ => true
  | .dly _ => false

/-- How many questions to the transport a wanted list asks. -/
def questions (ws : List Want) : Nat := (ws.filter Want.asks).length

/-- The event list of one nibble with composed bus byte `w` (43_nibble_transport.md R152). -/
def nibbleEvents (p : Params) (w : Byte) : List Want := [.wr w, .wr (w ||| p.enMask), .dly 1, .wr w, .dly 50]

/-- The event list of one byte with the bus bytes `h` and `l` of its halves (43_nibble_transport.md R153). -/
def pairEvents (p : Params) (h l : Byte) : List Want :=
  [.wr h, .wr (h ||| p.enMask), .dly 1, .wr h, .dly 50, .wr l, .wr (l ||| p.enMask), .dly 1, .wr l, .dly 50]

/-- `k`: `0x08` when `BL = 1`, else 0 (95_test_vectors.md, conventions). -/
def backlightBit (bl : Bool) : Byte := if bl then 0x08 else 0x00

/-- The event list of `dispatch(b, mode)` (43_nibble_transport.md R153). -/
def byteEvents (p : Params) (bl : Bool) (mode b : Byte) : List Want :=
  pairEvents p ((b &&& 0xF0) ||| mode ||| backlightBit bl) (((b <<< 4) &&& 0xF0) ||| mode ||| backlightBit bl)

/-- The event list of a command byte (43_nibble_transport.md R154). -/
def commandEvents (p : Params) (bl : Bool) (b : Byte) : List Want := byteEvents p bl 0x00 b

/-- The event list of a data byte (43_nibble_transport.md R155). -/
def dataEvents (p : Params) (bl : Bool) (b : Byte) : List Want := byteEvents p bl p.rsMask b

/-- The value of `DF` after INIT step 5 (40_init_sequencer.md R106). -/
def functionSetFlags (p : Params) (rows : Word) (charSize : CharSize) : Byte :=
  p.mode4Bit ||| (if 1 < rows.toNat then p.lines2 else p.lines1)
  ||| (if charSize = .dots5x10 ∧ rows.toNat = 1 then p.dots5x10 else p.dots5x8)

/-- The value of `DC` after INIT step 6 (40_init_sequencer.md R107). -/
def displayOnFlags (p : Params) : Byte := p.displayOn ||| p.cursorOff ||| p.blinkOff

/-- The value of `DM` after INIT step 8 (40_init_sequencer.md R109). -/
def entryModeFlags (p : Params) : Byte := p.entryLeft ||| p.shiftDecrement

/-- The event list of INIT (40_init_sequencer.md R101 to R110, in the order of R113). -/
def initEvents (p : Params) (rows : Word) (charSize : CharSize) (busId : Byte) : List Want :=
  List.flatten
    [[.bind busId, .dly p.tPower, .wr 0x08, .dly p.tBlSettle],
     nibbleEvents p 0x38, [.dly 4500],
     nibbleEvents p 0x38, [.dly 4500],
     nibbleEvents p 0x38, [.dly 150],
     nibbleEvents p 0x28,
     commandEvents p true (p.functionSet ||| functionSetFlags p rows charSize),
     commandEvents p true (p.displayControl ||| displayOnFlags p),
     commandEvents p true p.clearDisplay, [.dly 2000],
     commandEvents p true (p.entryModeSet ||| entryModeFlags p),
     commandEvents p true p.returnHome, [.dly 2000]]

/-- The row base addresses (10_state.md R32). -/
def rowBase (r : Nat) : Nat := [0x00, 0x40, 0x14, 0x54].getD r 0

/-- The sum `a` of SETCURSOR, as a number: `ROWOFF[min(row, ROWS-1)] + col` (41_control_ops.md R123). -/
def cursorAddress (rows : Word) (col row : Byte) : Nat := rowBase (min row.toNat (rows.toNat - 1)) + col.toNat

/-- The command byte of SETCURSOR: the low 8 bits of `SETDDRAMADDR | a` (41_control_ops.md R123). -/
def cursorByte (p : Params) (rows : Word) (col row : Byte) : Byte :=
  BitVec.ofNat 8 (p.setDdramAddr.toNat ||| cursorAddress rows col row)

/-- `dec(n)` (42_text_ops.md R142), over the digits of Mathlib's `Nat.digits`. -/
def decimalChars (n : Word) : List Byte :=
  (if n.toInt < 0 then [0x2D] else [])
  ++ (if n.toInt = 0 then [0] else (Nat.digits 10 n.toInt.natAbs).reverse).map fun d => 0x30 + BitVec.ofNat 8 d

/-- The event list that the rules give an admitted operation (R100 to R110, R121 to R127, R140 to R142, R154, R155). -/
def eventsOf (i : Instr) (s : State) : List Want :=
  match i with
  | .init busId => initEvents s.par s.rows s.charSize busId
  | .clear => commandEvents s.par s.bl s.par.clearDisplay ++ [.dly 2000]
  | .home => commandEvents s.par s.bl s.par.returnHome ++ [.dly 2000]
  | .setcursor col row => commandEvents s.par s.bl (cursorByte s.par s.rows col row)
  | .display => commandEvents s.par s.bl (s.par.displayControl ||| (s.dc ||| s.par.displayOn))
  | .nodisplay => commandEvents s.par s.bl (s.par.displayControl ||| (s.dc &&& ~~~s.par.displayOn))
  | .backlight => [.wr 0x08]
  | .nobacklight => [.wr 0x00]
  | .prints t => t.flatMap (dataEvents s.par s.bl)
  | .printn n => (decimalChars n).flatMap (dataEvents s.par s.bl)
  | .cmd b => commandEvents s.par s.bl b
  | .data b => dataEvents s.par s.bl b

/-- The operation is INIT, which every phase admits (60_exceptions.md R179). -/
def isInit : Instr → Bool
  | .init _ => true
  | _ => false

/-- The operation absorbs a `BusError` (60_exceptions.md R173). -/
def absorbs : Instr → Bool
  | .prints _ => true
  | .printn _ => true
  | _ => false

/-- The operation is admitted in this state of rest (60_exceptions.md R179). -/
abbrev Admitted (i : Instr) (s : State) : Prop := Idle s ∧ (isInit i = true ∨ s.phase = .ready)

/-! ### What an operation leaves alone -/

/-- The configuration and the parameters are the same (10_state.md R25). -/
abbrev SameConfig (s t : State) : Prop :=
  t.addr = s.addr ∧ t.cols = s.cols ∧ t.rows = s.rows ∧ t.charSize = s.charSize ∧ t.par = s.par

/-- Configuration, flag-merge file, `PHASE`, `BUSID` and the command port are the same. -/
abbrev SameRegisters (s t : State) : Prop :=
  SameConfig s t ∧ t.df = s.df ∧ t.dc = s.dc ∧ t.dm = s.dm ∧ t.bl = s.bl ∧ t.phase = s.phase
  ∧ t.busId = s.busId ∧ t.port = s.port

/-- The same but for `DC`. -/
abbrev SameButDc (s t : State) : Prop :=
  SameConfig s t ∧ t.df = s.df ∧ t.dm = s.dm ∧ t.bl = s.bl ∧ t.phase = s.phase ∧ t.busId = s.busId ∧ t.port = s.port

/-- The same but for `BL`. -/
abbrev SameButBl (s t : State) : Prop :=
  SameConfig s t ∧ t.df = s.df ∧ t.dc = s.dc ∧ t.dm = s.dm ∧ t.phase = s.phase ∧ t.busId = s.busId ∧ t.port = s.port

/-- The operation has ended with this record: at rest, `STATUS` and `VALUE` delivered, and the trace longer by these
events and the `Done` (10_state.md R34, R36; 20_memory.md R65). -/
abbrev Ended (s t : State) (es : List Event) (status : Status) (value : Byte) : Prop :=
  t.busy = false ∧ t.status = status ∧ t.value = value ∧ t.trace = s.trace ++ es ++ [.done status value]

/-- All the wanted events happened, each acknowledged, and nothing else. -/
abbrev EndedWith (s t : State) (ws : List Want) (value : Byte) : Prop :=
  Ended s t (ws.map (Want.acked s.addr)) .ok value

/-- The operation completes whatever the transport answers: with every answer `ok` it ends with all the wanted events
and `(OK, value)`; with the first `BusError` at any question it ends with the events up to the failed one and
`(BUSERR, 0)`; and in each case `same` holds of the two states (60_exceptions.md R173, R176). -/
abbrev Transacts (i : Instr) (s : State) (ws : List Want) (value : Byte) (same : State → State → Prop) : Prop :=
  ∃ t, exec i s = .next t ∧ same s t
    ∧ (Acks s (questions ws) → EndedWith s t ws value)
    ∧ ∀ j, j < questions ws → FailsAt s j → Ended s t (play s.addr s.answerAt 0 ws) .busErr 0

/-! ### Properties of event lists -/

/-- A write event's byte has bit 3 equal to `bl`, the read/write bit clear, and goes to `addr`
(43_nibble_transport.md R156; 20_memory.md R51). -/
def Event.busByteOk (p : Params) (addr : Byte) (bl : Bool) : Event → Bool
  | .wr a v _ => a = addr && backlightLine v = bl && !readLine p v
  | .bind _ _ => true
  | .dly _ => true
  | .done _ _ => true

/-- A write event's byte has the read/write bit clear and goes to `addr`: what holds of the whole trace. -/
def Event.busAccessOk (p : Params) (addr : Byte) : Event → Bool
  | .wr a v _ => a = addr && !readLine p v
  | .bind _ _ => true
  | .dly _ => true
  | .done _ _ => true

/-- The event is a bus write, acknowledged or failed. -/
def Event.isWrite : Event → Bool
  | .wr _ _ _ => true
  | .bind _ _ => false
  | .dly _ => false
  | .done _ _ => false

/-- The event is a `Done`. -/
def Event.isDone : Event → Bool
  | .done _ _ => true
  | .bind _ _ => false
  | .wr _ _ _ => false
  | .dly _ => false

/-- The event was a question to the transport. -/
def Event.isAnswered : Event → Bool
  | .bind _ _ => true
  | .wr _ _ _ => true
  | .dly _ => false
  | .done _ _ => false

/-- How many questions to the transport the events were. -/
def answered (es : List Event) : Nat := (es.filter Event.isAnswered).length

/-- The event was answered `BusError`. -/
def Event.isFailed : Event → Bool
  | .bind _ a => a = .busError
  | .wr _ _ a => a = .busError
  | .dly _ => false
  | .done _ _ => false

/-- The requested delay of an event (70_reset_and_hazards.md R208). -/
def Event.delay : Event → Nat
  | .dly n => n.toNat
  | .bind _ _ => 0
  | .wr _ _ _ => 0
  | .done _ _ => 0

/-- The pulse discipline of 43_nibble_transport.md R157 for the events of one operation, `prev` being the event before
them: a byte `v` with the enable bit set follows an acknowledged write of the same byte without it, and, "unless it or
its successor fails, is followed after `Dly 1` by that same byte without the enable bit and then `Dly 50`". -/
def pulsesOk (p : Params) (addr : Byte) : Option Event → List Event → Bool
  | _, [] => true
  | prev, e :: es =>
    (match e with
      | .wr _ v a =>
        if enableLine p v then
          prev = some (.wr addr (v &&& ~~~p.enMask) .ok)
          && (match a with
            | .busError => es = []
            | .ok =>
              match es with
              | .dly d :: .wr a' u b :: rest =>
                d = 1 && a' = addr && u = v &&& ~~~p.enMask
                && (match b with
                  | .busError => rest = []
                  | .ok => rest.head? = some (.dly 50))
              | _ => false)
        else true
      | _ => true)
    && pulsesOk p addr (some e) es

/-- The flip of the backlight bit in a write event (43_nibble_transport.md R158). -/
def Event.flipBacklight : Event → Event
  | .wr a v ans => .wr a (v ^^^ 0x08) ans
  | .bind id ans => .bind id ans
  | .dly n => .dly n
  | .done st v => .done st v

/-! ### What reaches the controller -/

/-- The latch observation of a byte whose write `j` (from 0) is the first to fail: the high nibble is certainly latched
from write 3 on; the nibble of the pulse in which the failed write falls, from its second write on, may or may not be
(20_memory.md R57, R66; notes/assumptions/18.md). -/
def failedByteRecords (rs : Bool) (b : Byte) (j : Nat) : List LatchRecord :=
  (if j < 3 then [] else [.latched ⟨rs, b.extractLsb' 4 4⟩])
  ++ [.undefined (if j % 3 = 0 then [] else [⟨rs, if j < 3 then b.extractLsb' 4 4 else b.extractLsb' 0 4⟩])]

/-- The five command bytes that a complete INIT sends to the instruction register (40_init_sequencer.md R106 to R110). -/
def initBytes (p : Params) (rows : Word) (charSize : CharSize) : List (Bool × Byte) :=
  [(false, p.functionSet ||| functionSetFlags p rows charSize), (false, p.displayControl ||| displayOnFlags p),
   (false, p.clearDisplay), (false, p.entryModeSet ||| entryModeFlags p), (false, p.returnHome)]

/-- The bytes an operation sends when every write is acknowledged, each with the register it is for: the instruction
register (`false`) or the data register (`true`) (43_nibble_transport.md R153; 20_memory.md R66). -/
def bytesOf (i : Instr) (s : State) : List (Bool × Byte) :=
  match i with
  | .init _ => initBytes s.par s.rows s.charSize
  | .clear => [(false, s.par.clearDisplay)]
  | .home => [(false, s.par.returnHome)]
  | .setcursor col row => [(false, cursorByte s.par s.rows col row)]
  | .display => [(false, s.par.displayControl ||| (s.dc ||| s.par.displayOn))]
  | .nodisplay => [(false, s.par.displayControl ||| (s.dc &&& ~~~s.par.displayOn))]
  | .backlight => []
  | .nobacklight => []
  | .prints t => t.map fun b => (true, b)
  | .printn n => (decimalChars n).map fun b => (true, b)
  | .cmd b => [(false, b)]
  | .data b => [(true, b)]

/-! ### The invariant -/

/-- The two legal values of `DC` after INIT (10_state.md R28). -/
abbrev LegalDc (p : Params) (dc : Byte) : Prop :=
  dc = displayOnFlags p ∨ dc = displayOnFlags p &&& ~~~p.displayOn

/-- INIT step 5 has been reached since INIT was last accepted (10_state.md R33). -/
def pastFunctionSet : Phase → Bool
  | .functionSet | .displayOn | .cleared | .entryModeSet | .homed | .ready => true
  | _ => false

/-- INIT step 6 has been reached. -/
def pastDisplayOn : Phase → Bool
  | .displayOn | .cleared | .entryModeSet | .homed | .ready => true
  | _ => false

/-- INIT step 8 has been reached. -/
def pastEntryMode : Phase → Bool
  | .entryModeSet | .homed | .ready => true
  | _ => false

/-- INIT step 2 has been reached, and the sequence is not complete. -/
def insideInit : Phase → Bool
  | .unpowered | .ready => false
  | _ => true

/-- What holds of the machine between two operations. -/
structure Inv (s : State) : Prop where
  /-- "The engine is at rest exactly when `BUSY = 0`" (20_memory.md R68). -/
  idle       : s.busy = false
  /-- `ROWS` in 1..4 (10_state.md R23). -/
  rows       : Config.rowsSupported s.rows = true
  /-- The parameters meet 00_scope.md R8. -/
  params     : s.par.WellFormed
  /-- `DF` is what INIT step 5 wrote (10_state.md R27). -/
  df         : pastFunctionSet s.phase = true → s.df = functionSetFlags s.par s.rows s.charSize
  /-- `DC` has one of its two legal values (10_state.md R28). -/
  dc         : pastDisplayOn s.phase = true → LegalDc s.par s.dc
  /-- `DM` is what INIT step 8 wrote (10_state.md R29). -/
  dm         : pastEntryMode s.phase = true → s.dm = entryModeFlags s.par
  /-- The backlight is on while INIT is unfinished (40_init_sequencer.md R103, R112). -/
  bl         : insideInit s.phase = true → s.bl = true
  /-- Every bus access goes to `ADDR`, with the read/write line low (20_memory.md R51; 43_nibble_transport.md R156). -/
  accesses   : ∀ e ∈ s.trace, Event.busAccessOk s.par s.addr e = true
  /-- A trace ends with a `Done` event, or is empty (20_memory.md R68). -/
  ended      : s.trace = [] ∨ s.trace.getLast? = some (.done s.status s.value)
  /-- The ghost latch is what the trace says (10_state.md R38). -/
  latch      : s.xlatch = latchOf s.trace
  /-- No pulse is open: where the byte on the lines is known, its enable bit is clear (43_nibble_transport.md R157). -/
  enable     : ∀ v, (observe s.par s.trace).lines = .byte v → enableLine s.par v = false

end Sys2Proof.Safety
end

