-- ==== Sys2Proof/Certificates/Slice0/Obligations.lean ====
section
/-! DEFINITION. The statements for the provers, from the numbered rules of spec/. The terms are those of Safety.lean:
`Ready s` is a state of rest that admits every operation, `Acks s n` says the next `n` questions to the transport are
answered `ok`, `FailsAt s j` that the first `BusError` is the answer to question `j`. -/

open Sys2Proof Sys2Proof.Config Sys2Proof.Machine Sys2Proof.Safety

/-! ### The command port -/

/-- Decoding an encoded operation gives it back, with the bytes after it untouched (R80, R81, R82, R84, R88). -/
def Obligations.DecodeReadsEncodedPacket : Prop :=
  ∀ (i : Instr) (rest : List Byte), i.wf = true → decode (encode i ++ rest) = .packet i rest

/-- Every packet the decoder accepts is the encoding of a well-formed operation: no two packets share a reading
(R80, R81, R82, R84). -/
def Obligations.DecodedPacketIsItsEncoding : Prop :=
  ∀ (bytes rest : List Byte) (i : Instr), decode bytes = .packet i rest → i.wf = true ∧ bytes = encode i ++ rest

/-- "From byte 0: formats N, B, CR, I have 1, 2, 3, 5 bytes. Format S has `2 + byte 1` bytes." (R88). -/
def Obligations.PacketLengthFollowsFormat : Prop :=
  ∀ (op : Byte) (tail rest : List Byte) (i : Instr), decode (op :: tail) = .packet i rest →
    (op :: tail).length =
      rest.length +
        (if op = 0x01 ∨ op = 0x0B ∨ op = 0x0C then 2
         else if op = 0x04 then 3
         else if op = 0x09 then 2 + (tail.headD 0).toNat
         else if op = 0x0A then 5
         else 1)

/-- A packet that ends before its format's length is not accepted and the engine does nothing; the bytes beyond the
length belong to the next packet (R89). -/
def Obligations.IncompletePacketDoesNothing : Prop :=
  (∀ (i : Instr) (k : Nat) (s : State), i.wf = true → k < (encode i).length → s.busy = false →
      s.port = (encode i).take k → step s = .next s)
  ∧ ∀ (i : Instr) (rest : List Byte) (s : State), i.wf = true → s.busy = false → s.port = encode i ++ rest →
      step s = exec i { s with port := rest }

/-- A packet whose byte 0 is reserved is refused: byte 0 alone is consumed, the record is `(REFUSED, 0)`, and nothing
else changes (R83). -/
def Obligations.ReservedOpcodeIsRefused : Prop :=
  ∀ (op : Byte) (rest : List Byte) (s : State), op = 0x00 ∨ 0x0D ≤ op.toNat → Idle s → s.port = op :: rest →
    step s = .next { s with port := rest, status := .refused, value := 0, trace := s.trace ++ [.done .refused 0] }

/-- Every packet of 95_test_vectors.md V7 and of its programs P1 to P6, written out byte by byte, decodes to its
operation. -/
def Obligations.VectorPacketsDecode : Prop :=
  (decode [0x01, 0x00] = .packet (.init 0x00) [] ∧ decode [0x01, 0x01] = .packet (.init 0x01) []
    ∧ decode [0x01, 0x07] = .packet (.init 0x07) [])
  ∧ (decode [0x02] = .packet .clear [] ∧ decode [0x03] = .packet .home [])
  ∧ (decode [0x04, 0x03, 0x01] = .packet (.setcursor 0x03 0x01) []
    ∧ decode [0x04, 0x00, 0x03] = .packet (.setcursor 0x00 0x03) []
    ∧ decode [0x04, 0x05, 0x03] = .packet (.setcursor 0x05 0x03) [])
  ∧ (decode [0x05] = .packet .display [] ∧ decode [0x06] = .packet .nodisplay []
    ∧ decode [0x07] = .packet .backlight [] ∧ decode [0x08] = .packet .nobacklight [])
  ∧ (decode [0x09, 0x03, 0x41, 0x42, 0x43, 0x02] = .packet (.prints [0x41, 0x42, 0x43]) [0x02]
    ∧ decode [0x09, 0x02, 0x48, 0x69] = .packet (.prints [0x48, 0x69]) []
    ∧ decode [0x09, 0x01, 0x21] = .packet (.prints [0x21]) []
    ∧ decode [0x09, 0x0C, 0x48, 0x65, 0x6C, 0x6C, 0x6F, 0x20, 0x57, 0x6F, 0x72, 0x6C, 0x64, 0x21]
      = .packet (.prints [0x48, 0x65, 0x6C, 0x6C, 0x6F, 0x20, 0x57, 0x6F, 0x72, 0x6C, 0x64, 0x21]) [])
  ∧ decode [0x0A, 0xFF, 0xFF, 0xFF, 0xD6] = .packet (.printn (BitVec.ofInt 32 (-42))) []
  ∧ (decode [0x0B, 0x01] = .packet (.cmd 0x01) [] ∧ decode [0x0C, 0x41] = .packet (.data 0x41) [])
  ∧ (decode [0x00] = .reserved 0x00 [] ∧ decode [0x0D] = .reserved 0x0D [] ∧ decode [0xFF] = .reserved 0xFF [])

/-- When the bytes at the command port decode to an operation and the engine is idle, the step is that operation's
execution with its packet consumed (R64, R80). -/
def Obligations.StepRunsDecodedOperation : Prop :=
  ∀ (s : State) (i : Instr) (rest : List Byte), s.busy = false → decode s.port = .packet i rest →
    step s = exec i { s with port := rest }

/-- Admission and refusal (R179): no packet is accepted while `BUSY = 1`; an idle engine admits INIT always and every
other operation exactly when `PHASE = Ready`; an operation that is not admitted changes nothing but the completion
record `(REFUSED, 0)` and its `Done` event; a reserved opcode is never admitted. -/
def Obligations.AdmissionAndRefusal : Prop :=
  (∀ (i : Instr) (s t : State), s.busy = true → exec i s ≠ .next t)
  ∧ (∀ (i : Instr) (s : State), Admitted i s → ∃ t, exec i s = .next t ∧ t.status ≠ .refused)
  ∧ (∀ (i : Instr) (s : State), Idle s → isInit i = false → s.phase ≠ .ready →
      exec i s = .next { s with status := .refused, value := 0, trace := s.trace ++ [.done .refused 0] })
  ∧ ∀ s : State, Idle s →
      execReserved s = .next { s with status := .refused, value := 0, trace := s.trace ++ [.done .refused 0] }

/-- The model's choice for a busy engine (R34; notes/assumptions/12.md): the step and every operation are stuck. -/
def Obligations.BusyEngineIsStuck : Prop :=
  ∀ (i : Instr) (s : State), s.busy = true → exec i s = .fault .stuckBusy ∧ step s = .fault .stuckBusy

/-- The model's choice for a configuration the spec gives no meaning (R23; notes/assumptions/11.md): construction
refuses it, and so does every operation. -/
def Obligations.UnsupportedRowsAreRefused : Prop :=
  (∀ (p : Params) (st : Straps), Config.rowsSupported st.rows = false → State.construct p st = .refused .rowsUnsupported)
  ∧ ∀ (i : Instr) (s : State), s.busy = false → Config.rowsSupported s.rows = false →
      exec i s = .refused .rowsUnsupported

/-- The completion record is the two bytes `STATUS, VALUE`, `STATUS` in `{0x00 OK, 0x01 BUSERR, 0x02 REFUSED}` (R85). -/
def Obligations.CompletionRecordEncoding : Prop :=
  ∀ s : State,
    (s.status = .ok → s.completionRecord = [0x00, s.value])
    ∧ (s.status = .busErr → s.completionRecord = [0x01, s.value])
    ∧ (s.status = .refused → s.completionRecord = [0x02, s.value])

/-- `VALUE` of every record (R36): 0 whenever `STATUS != OK`; 1 for a DATA that ends `OK`; 0 for every operation
other than PRINTS, PRINTN and DATA. -/
def Obligations.ValueOfEveryRecord : Prop :=
  ∀ (i : Instr) (s t : State), exec i s = .next t →
    (t.status ≠ .ok → t.value = 0)
    ∧ (∀ b, i = .data b → t.status = .ok → t.value = 1)
    ∧ (absorbs i = false → (∀ b, i ≠ .data b) → t.value = 0)

/-! ### The nibble sequencer: CMD and DATA -/

/-- CMD `b` (R154): opcode 0x0B, six writes with the register-select bit 0, no register written; completes `(OK, 0)`,
or `(BUSERR, 0)` at the first failed write. -/
def Obligations.CmdDispatchesCommandByte : Prop :=
  ∀ (b : Byte) (s : State), Ready s → s.par.WellFormed →
    decode [0x0B, b] = .packet (.cmd b) []
    ∧ Transacts (.cmd b) s
        (pairEvents s.par ((b &&& 0xF0) ||| backlightBit s.bl) (((b <<< 4) &&& 0xF0) ||| backlightBit s.bl)) 0
        SameRegisters

/-- DATA `b` (R155): opcode 0x0C, six writes with the register-select bit set, no register written; completes `(OK, 1)`
only when all six were acknowledged, else `(BUSERR, 0)`. -/
def Obligations.DataDispatchesDataByte : Prop :=
  ∀ (b : Byte) (s : State), Ready s → s.par.WellFormed →
    decode [0x0C, b] = .packet (.data b) []
    ∧ Transacts (.data b) s
        (pairEvents s.par ((b &&& 0xF0) ||| s.par.rsMask ||| backlightBit s.bl)
          (((b <<< 4) &&& 0xF0) ||| s.par.rsMask ||| backlightBit s.bl)) 1
        SameRegisters

/-- What reaches the controller when every write is acknowledged (R153, R66): CMD delivers its byte to the instruction
register, DATA to the data register, PRINTS its bytes in order to the data register. -/
def Obligations.AcknowledgedBytesAreDelivered : Prop :=
  ∀ (s : State), Ready s → s.par.WellFormed →
    (∀ b, Acks s 6 → ∃ t es, exec (.cmd b) s = .next t ∧ t.trace = s.trace ++ es
      ∧ deliveredBytes .high (latchObservation s.par es) = [(false, b)])
    ∧ (∀ b, Acks s 6 → ∃ t es, exec (.data b) s = .next t ∧ t.trace = s.trace ++ es
      ∧ deliveredBytes .high (latchObservation s.par es) = [(true, b)])
    ∧ ∀ text : List Byte, Acks s (6 * text.length) → ∃ t es, exec (.prints text) s = .next t ∧ t.trace = s.trace ++ es
      ∧ deliveredBytes .high (latchObservation s.par es) = text.map fun b => (true, b)

/-- A failure inside one byte (R57, R66, R203): with the first `BusError` at write `j` (counting from 0) of CMD or DATA,
the nibbles certainly latched are none if `j < 3` and the high one from `j = 3` on; the observation then is undefined, and
only the nibble of the pulse in which write `j` falls may have been latched besides, from its second write on. How the
model writes down what R66 leaves undefined is notes/assumptions/18.md. -/
def Obligations.FailedByteNibbles : Prop :=
  ∀ (b : Byte) (s : State) (j : Nat), Ready s → s.par.WellFormed → j < 6 → FailsAt s j →
    (∃ t es, exec (.data b) s = .next t ∧ t.trace = s.trace ++ es
      ∧ latchObservation s.par es = failedByteRecords true b j)
    ∧ ∃ t es, exec (.cmd b) s = .next t ∧ t.trace = s.trace ++ es
      ∧ latchObservation s.par es = failedByteRecords false b j

/-- What reaches the controller over the whole trace (R66, R153, R55): with the pairs aligned and every write
acknowledged, an operation other than INIT delivers exactly its bytes, each to its register, and leaves the pairs
aligned. -/
def Obligations.AlignedOperationsDeliver : Prop :=
  ∀ (i : Instr) (s : State), Inv s → Ready s → isInit i = false → pairingOf s.par s.trace = .high →
    Acks s (questions (eventsOf i s)) →
    ∃ t, exec i s = .next t ∧ delivered s.par t.trace = delivered s.par s.trace ++ bytesOf i s
      ∧ pairingOf s.par t.trace = .high

/-- Every bus byte of every operation (R156, R72, R51): it goes to `ADDR`, its bit 3 is `BL` (no operation changes `BL`
after its first write, so `BL` at the write is `BL` at the end), and the read/write bit is 0. -/
def Obligations.BusBytesCarryBacklight : Prop :=
  ∀ (i : Instr) (s t : State), s.par.WellFormed → exec i s = .next t →
    ∃ es, t.trace = s.trace ++ es ∧ ∀ e ∈ es, Event.busByteOk s.par s.addr t.bl e = true

/-- The enable bit (R157): in every operation a byte with the enable bit set stands only as the middle write of a
nibble, with `Dly 1` and `Dly 50` in their places, unless a `BusError` cuts it short; and the backlight operations
never set it. -/
def Obligations.EnableBitOnlyInPulses : Prop :=
  ∀ (i : Instr) (s t : State), s.par.WellFormed → exec i s = .next t →
    ∃ es, t.trace = s.trace ++ es ++ [.done t.status t.value] ∧ pulsesOk s.par s.addr none es = true
      ∧ (i = .backlight ∨ i = .nobacklight → ∀ a v ans, Event.wr a v ans ∈ es → enableLine s.par v = false)

/-- Changing `BL` changes bit 3 of every bus byte and nothing else (R158): the events of a transmitting operation with
the two values of `BL` differ exactly in bit 3 of each byte, and the latch observations are equal. -/
def Obligations.BacklightChangesOnlyBitThree : Prop :=
  ∀ (i : Instr) (s t u : State), s.par.WellFormed → isInit i = false → i ≠ .backlight → i ≠ .nobacklight →
    exec i s = .next t → exec i { s with bl := !s.bl } = .next u →
    ∃ es fs, t.trace = s.trace ++ es ∧ u.trace = s.trace ++ fs ∧ fs = es.map Event.flipBacklight
      ∧ latchObservation s.par fs = latchObservation s.par es

/-- Micro-operations execute in list order, and `UPC` is the index of the next (R34). That each one, a register write, a
`Bind`, a write and a delay alike, counts one is the model's choice, notes/assumptions/17.md. `BUSY` stays as it is. -/
def Obligations.MicroOperationsAdvanceUpc : Prop :=
  ∀ (ops : List MicroOp) (s t : State), runOps ops s = .completed t → t.upc = s.upc + ops.length ∧ t.busy = s.busy

/-! ### The control operations -/

/-- CLEAR (R121): opcode 0x02; the six writes of `CLEARDISPLAY`, then `Dly 2000`; no register written; after a failed
write neither the rest nor the wait; acknowledged, the controller latches the command byte. -/
def Obligations.ClearSendsClearDisplayAndWaits : Prop :=
  ∀ s : State, Ready s → s.par.WellFormed →
    decode [0x02] = .packet .clear []
    ∧ Transacts .clear s (commandEvents s.par s.bl s.par.clearDisplay ++ [.dly 2000]) 0 SameRegisters
    ∧ (Acks s 6 → ∃ t es, exec .clear s = .next t ∧ t.trace = s.trace ++ es
        ∧ deliveredBytes .high (latchObservation s.par es) = [(false, s.par.clearDisplay)])

/-- HOME (R122): opcode 0x03; the six writes of `RETURNHOME`, then `Dly 2000`; no register written; after a failed
write neither the rest nor the wait; acknowledged, the controller latches the command byte. -/
def Obligations.HomeSendsReturnHomeAndWaits : Prop :=
  ∀ s : State, Ready s → s.par.WellFormed →
    decode [0x03] = .packet .home []
    ∧ Transacts .home s (commandEvents s.par s.bl s.par.returnHome ++ [.dly 2000]) 0 SameRegisters
    ∧ (Acks s 6 → ∃ t es, exec .home s = .next t ∧ t.trace = s.trace ++ es
        ∧ deliveredBytes .high (latchObservation s.par es) = [(false, s.par.returnHome)])

/-- SETCURSOR (R123): opcode 0x04; the low 8 bits of `SETDDRAMADDR | (ROWOFF[min(row, ROWS-1)] + col)` are sent; no
register written. -/
def Obligations.SetCursorSendsClampedAddress : Prop :=
  ∀ (col row : Byte) (s : State), Ready s → s.par.WellFormed →
    decode [0x04, col, row] = .packet (.setcursor col row) []
    ∧ Transacts (.setcursor col row) s
        (commandEvents s.par s.bl
          (BitVec.ofNat 8 (s.par.setDdramAddr.toNat |||
            ([0x00, 0x40, 0x14, 0x54].getD (min row.toNat (s.rows.toNat - 1)) 0 + col.toNat)))) 0
        SameRegisters

/-- "`setCursor(col, row)` for row≥rowCount always clamps to rowCount−1" (R123): it is the operation at the last row. -/
def Obligations.SetCursorClampsToLastRow : Prop :=
  ∀ (col row : Byte) (s : State), s.rows.toNat ≤ row.toNat →
    exec (.setcursor col row) s = exec (.setcursor col (BitVec.ofNat 8 (s.rows.toNat - 1))) s

/-- DISPLAY (R124): opcode 0x05; `DC <- DC | DISPLAY_ON`, kept even if the send fails; the six writes of
`DISPLAYCONTROL | DC`; nothing else written. -/
def Obligations.DisplaySetsDisplayOn : Prop :=
  ∀ s : State, Ready s → s.par.WellFormed →
    decode [0x05] = .packet .display []
    ∧ Transacts .display s (commandEvents s.par s.bl (s.par.displayControl ||| (s.dc ||| s.par.displayOn))) 0
        (fun s t => SameButDc s t ∧ t.dc = s.dc ||| s.par.displayOn)

/-- NODISPLAY (R125): opcode 0x06; `DC <- DC & ~DISPLAY_ON`, kept even if the send fails; the six writes of
`DISPLAYCONTROL | DC`; nothing else written. -/
def Obligations.NoDisplayClearsDisplayOn : Prop :=
  ∀ s : State, Ready s → s.par.WellFormed →
    decode [0x06] = .packet .nodisplay []
    ∧ Transacts .nodisplay s (commandEvents s.par s.bl (s.par.displayControl ||| (s.dc &&& ~~~s.par.displayOn))) 0
        (fun s t => SameButDc s t ∧ t.dc = s.dc &&& ~~~s.par.displayOn)

/-- The round trip of R124: whatever the transport answers, `display(); noDisplay(); display()` leaves the `DC` that
the first `display()` left, and the `DISPLAY_ON` bit is clear in between. -/
def Obligations.DisplayRoundTrip : Prop :=
  ∀ s t u v : State, Ready s → exec .display s = .next t → exec .nodisplay t = .next u → exec .display u = .next v →
    v.dc = t.dc ∧ u.dc &&& s.par.displayOn = 0

/-- BACKLIGHT (R126): opcode 0x07; `BL <- 1`, kept even if the write fails; the one zero-payload write; no delay;
nothing else written; the byte has no enable bit. -/
def Obligations.BacklightSwitchesOn : Prop :=
  ∀ s : State, Ready s →
    decode [0x07] = .packet .backlight []
    ∧ Transacts .backlight s [.wr 0x08] 0 (fun s t => SameButBl s t ∧ t.bl = true)
    ∧ (s.par.WellFormed → enableLine s.par 0x08 = false)

/-- NOBACKLIGHT (R127): opcode 0x08; `BL <- 0`, kept even if the write fails; the one zero-payload write; no delay;
nothing else written. -/
def Obligations.NoBacklightSwitchesOff : Prop :=
  ∀ s : State, Ready s →
    decode [0x08] = .packet .nobacklight []
    ∧ Transacts .nobacklight s [.wr 0x00] 0 (fun s t => SameButBl s t ∧ t.bl = false)

/-! ### The text operations -/

/-- PRINTS (R140): opcode 0x09, format S; the data transactions of the bytes in order; always `STATUS = OK`; `VALUE` is
the number of bytes all six of whose writes were acknowledged; a failure at write `j` (from 0) ends it with `j / 6`. -/
def Obligations.PrintsCountsCompletedBytes : Prop :=
  ∀ (text : List Byte) (s : State), text.length ≤ 255 → Ready s → s.par.WellFormed →
    decode ([0x09, BitVec.ofNat 8 text.length] ++ text) = .packet (.prints text) []
    ∧ ∃ t, exec (.prints text) s = .next t ∧ SameRegisters s t
      ∧ (Acks s (6 * text.length) →
          EndedWith s t (text.flatMap (dataEvents s.par s.bl)) (BitVec.ofNat 8 text.length))
      ∧ ∀ j, j < 6 * text.length → FailsAt s j →
          Ended s t (play s.addr s.answerAt 0 (text.flatMap (dataEvents s.par s.bl))) .ok (BitVec.ofNat 8 (j / 6))

/-- PRINTN (R141): opcode 0x0A, format I; prints the 1 to 11 bytes of the decimal text of its signed operand exactly
as PRINTS does, count included. The ASCII codes of the text are general knowledge, PRESUMED: notes/assumptions/20.md. -/
def Obligations.PrintnPrintsDecimalText : Prop :=
  ∀ (n : Word) (s : State), Ready s → s.par.WellFormed →
    decode [0x0A, n.extractLsb' 24 8, n.extractLsb' 16 8, n.extractLsb' 8 8, n.extractLsb' 0 8]
      = .packet (.printn n) []
    ∧ 1 ≤ (decimalChars n).length ∧ (decimalChars n).length ≤ 11
    ∧ exec (.printn n) s = exec (.prints (decimalChars n)) s
    ∧ ∃ t, exec (.printn n) s = .next t ∧ SameRegisters s t
      ∧ (Acks s (6 * (decimalChars n).length) →
          EndedWith s t ((decimalChars n).flatMap (dataEvents s.par s.bl)) (BitVec.ofNat 8 (decimalChars n).length))
      ∧ ∀ j, j < 6 * (decimalChars n).length → FailsAt s j →
          Ended s t (play s.addr s.answerAt 0 ((decimalChars n).flatMap (dataEvents s.par s.bl))) .ok
            (BitVec.ofNat 8 (j / 6))

/-- `dec(n)` (R142): with `m = |n|` there is a digit count `k`, the least one with `m < 10^k` (and 1 for `m = 0`), such
that the text is a minus sign exactly if `n < 0`, then `k` bytes of which the one `j` places from the right is
`0x30 + (m div 10^j) mod 10`. The codes `0x30 + d` and `0x2D` are general knowledge, PRESUMED:
notes/assumptions/20.md. -/
def Obligations.DecimalTextDigits : Prop :=
  ∀ n : Word, ∃ k : Nat, 1 ≤ k ∧ n.toInt.natAbs < 10 ^ k ∧ (n.toInt.natAbs ≠ 0 → 10 ^ (k - 1) ≤ n.toInt.natAbs)
    ∧ (n.toInt = 0 → k = 1)
    ∧ decimalText n =
        (if n.toInt < 0 then [0x2D] else [])
        ++ ((List.range k).map fun j => 0x30 + BitVec.ofNat 8 (n.toInt.natAbs / 10 ^ j % 10)).reverse

/-! ### INIT -/

/-- INIT with every answer `ok`, from any phase (R100 to R110, R114): the bind and the 43 writes and all waits in their
order; `PHASE = Ready`, `BL = 1`, `DF`, `DC`, `DM`, `BUSID` as the steps write them; nothing else written. -/
def Obligations.InitRunsWholeSequence : Prop :=
  ∀ (busId : Byte) (s : State), Idle s → s.par.WellFormed → Acks s 44 →
    decode [0x01, busId] = .packet (.init busId) []
    ∧ ∃ t, exec (.init busId) s = .next t ∧ EndedWith s t (initEvents s.par s.rows s.charSize busId) 0
      ∧ SameConfig s t ∧ t.port = s.port ∧ t.busId = busId ∧ t.phase = .ready ∧ t.bl = true
      ∧ t.df = s.par.mode4Bit ||| (if 1 < s.rows.toNat then s.par.lines2 else s.par.lines1)
          ||| (if s.charSize = .dots5x10 ∧ s.rows.toNat = 1 then s.par.dots5x10 else s.par.dots5x8)
      ∧ t.dc = s.par.displayOn ||| s.par.cursorOff ||| s.par.blinkOff
      ∧ t.dm = s.par.entryLeft ||| s.par.shiftDecrement

/-- INIT stopped by a `BusError` (R112), question 0 being the bind and question `j` bus write number `j`: no further
event, `(BUSERR, 0)`, `PHASE` at the failing step, each of `BL`, `DF`, `DC`, `DM` written exactly if its step was
reached, and then every operation but INIT refused. -/
def Obligations.InitFailureStopsAtItsStep : Prop :=
  ∀ (busId : Byte) (s : State) (j : Nat), Idle s → s.par.WellFormed → j < 44 → FailsAt s j →
    ∃ t, exec (.init busId) s = .next t
      ∧ Ended s t (play s.addr s.answerAt 0 (initEvents s.par s.rows s.charSize busId)) .busErr 0
      ∧ SameConfig s t ∧ t.port = s.port ∧ t.busId = busId
      ∧ t.phase = (if j = 0 then Phase.unpowered else if j ≤ 1 then .powerSettle else if j ≤ 4 then .forceIdle1
          else if j ≤ 7 then .forceIdle2 else if j ≤ 10 then .forceIdle3 else if j ≤ 13 then .fourBitLatch
          else if j ≤ 19 then .functionSet else if j ≤ 25 then .displayOn else if j ≤ 31 then .cleared
          else if j ≤ 37 then .entryModeSet else .homed)
      ∧ t.bl = (if 1 ≤ j then true else s.bl)
      ∧ t.df = (if 14 ≤ j then functionSetFlags s.par s.rows s.charSize else s.df)
      ∧ t.dc = (if 20 ≤ j then displayOnFlags s.par else s.dc)
      ∧ t.dm = (if 32 ≤ j then entryModeFlags s.par else s.dm)
      ∧ ∀ i, isInit i = false →
          exec i t = .next { t with status := .refused, value := 0, trace := t.trace ++ [.done .refused 0] }

/-- The complete event list of a successful `INIT 1` with `ROWS = 2`, default font, default parameters, its end state
and its latch observation (R113). The default parameters are general knowledge, PRESUMED: notes/assumptions/5.md. -/
def Obligations.InitDefaultTrace : Prop :=
  ∀ s : State, Idle s → s.rows = 2 → s.charSize = .dots5x8 → s.par = Params.default → Acks s 44 →
    ∃ t, exec (.init 0x01) s = .next t
      ∧ EndedWith s t
          (List.flatten
            [[.bind 0x01, .dly 50000, .wr 0x08, .dly 1000000],
             [.wr 0x38, .wr 0x3C, .dly 1, .wr 0x38, .dly 50, .dly 4500],
             [.wr 0x38, .wr 0x3C, .dly 1, .wr 0x38, .dly 50, .dly 4500],
             [.wr 0x38, .wr 0x3C, .dly 1, .wr 0x38, .dly 50, .dly 150],
             [.wr 0x28, .wr 0x2C, .dly 1, .wr 0x28, .dly 50],
             [.wr 0x28, .wr 0x2C, .dly 1, .wr 0x28, .dly 50, .wr 0x88, .wr 0x8C, .dly 1, .wr 0x88, .dly 50],
             [.wr 0x08, .wr 0x0C, .dly 1, .wr 0x08, .dly 50, .wr 0xC8, .wr 0xCC, .dly 1, .wr 0xC8, .dly 50],
             [.wr 0x08, .wr 0x0C, .dly 1, .wr 0x08, .dly 50, .wr 0x18, .wr 0x1C, .dly 1, .wr 0x18, .dly 50, .dly 2000],
             [.wr 0x08, .wr 0x0C, .dly 1, .wr 0x08, .dly 50, .wr 0x68, .wr 0x6C, .dly 1, .wr 0x68, .dly 50],
             [.wr 0x08, .wr 0x0C, .dly 1, .wr 0x08, .dly 50, .wr 0x28, .wr 0x2C, .dly 1, .wr 0x28, .dly 50, .dly 2000]])
          0
      ∧ t.phase = .ready ∧ t.bl = true ∧ t.df = 0x08 ∧ t.dc = 0x04 ∧ t.dm = 0x02 ∧ t.busId = 0x01
      ∧ ∃ es, t.trace = s.trace ++ es
        ∧ (latchObservation s.par es).take 5
            = [.restart, .latched ⟨false, 3⟩, .latched ⟨false, 3⟩, .latched ⟨false, 3⟩, .latched ⟨false, 2⟩]
        ∧ ∀ start, deliveredBytes start (latchObservation s.par es)
            = [(false, 0x28), (false, 0x0C), (false, 0x01), (false, 0x06), (false, 0x02)]

/-- The totals of a successful INIT (R111, R208): one bind, 43 bus writes, and `T_POWER + T_BL_SETTLE + 13864` µs of
requested delay, which is 1 063 864 at the source's own margins. -/
def Obligations.InitTotals : Prop :=
  ∀ (busId : Byte) (s : State), Idle s → s.par.WellFormed → Acks s 44 →
    ∃ t es, exec (.init busId) s = .next t ∧ t.trace = s.trace ++ es
      ∧ (es.filter Event.isWrite).length = 43
      ∧ (es.filter fun e => e = .bind busId .ok).length = 1
      ∧ (es.map Event.delay).sum = s.par.tPower.toNat + s.par.tBlSettle.toNat + 13864
      ∧ (s.par.tPower = 50000 → s.par.tBlSettle = 1000000 → (es.map Event.delay).sum = 1063864)

/-- What a successful INIT delivers (R113, R66): the single nibbles 3, 3, 3, 2, then the five command bytes, all to the
instruction register, however the nibbles before it were left. -/
def Obligations.InitDeliversCommandBytes : Prop :=
  ∀ (busId : Byte) (s : State), Idle s → s.par.WellFormed → Acks s 44 →
    ∃ t es, exec (.init busId) s = .next t ∧ t.trace = s.trace ++ es
      ∧ (latchObservation s.par es).take 5
          = [.restart, .latched ⟨false, 3⟩, .latched ⟨false, 3⟩, .latched ⟨false, 3⟩, .latched ⟨false, 2⟩]
      ∧ ∀ start, deliveredBytes start (latchObservation s.par es) = initBytes s.par s.rows s.charSize

/-- The model's reading that INIT starts the pairs again, over the whole trace: after a successful INIT, whatever the trace
before it left, the bytes delivered are those before it and INIT's five, its four single nibbles in no byte, and the pairs
are aligned. R66 says that nibbles pair up after FourBitLatch, and R203 that the only repair is a new INIT; that the repair
succeeds is the model's choice, DEDUCED: notes/assumptions/18.md. -/
def Obligations.InitRestartsPairing : Prop :=
  ∀ (busId : Byte) (s : State), Inv s → Acks s 44 →
    ∃ t, exec (.init busId) s = .next t
      ∧ delivered s.par t.trace = delivered s.par s.trace ++ initBytes s.par s.rows s.charSize
      ∧ pairingOf s.par t.trace = .high

/-! ### Events, errors, frames -/

/-- The events of every admitted operation, whatever the transport answers, are the event list of its rule cut after
the first failed event, then one `Done` (R61, R65, R176). -/
def Obligations.ExecRefinesEventLists : Prop :=
  ∀ (i : Instr) (s : State), s.par.WellFormed → Admitted i s →
    ∃ t, exec i s = .next t
      ∧ t.trace = s.trace ++ play s.addr s.answerAt 0 (eventsOf i s) ++ [.done t.status t.value]

/-- What a `BusError` does to an operation (R173, R176): a failed event is the operation's last before its `Done`; with
one, PRINTS and PRINTN end `OK` and every other operation `(BUSERR, 0)`; without one no operation ends `BUSERR`; and the
engine is idle again. -/
def Obligations.BusErrorEndsOperation : Prop :=
  ∀ (i : Instr) (s t : State), exec i s = .next t →
    ∃ es, t.trace = s.trace ++ es ++ [.done t.status t.value] ∧ t.busy = false
      ∧ (∀ es₁ e es₂, es = es₁ ++ e :: es₂ → Event.isFailed e = true → es₂ = [])
      ∧ (es.any Event.isFailed = true →
          (absorbs i = true → t.status = .ok) ∧ (absorbs i = false → t.status = .busErr ∧ t.value = 0))
      ∧ (es.any Event.isFailed = false → t.status ≠ .busErr)

/-- The trace only grows, by the events of the operation and exactly one `Done`, which is the record (R65, R68). -/
def Obligations.OneDonePerOperation : Prop :=
  ∀ (i : Instr) (s t : State), exec i s = .next t →
    ∃ es, t.trace = s.trace ++ es ++ [.done t.status t.value] ∧ es.any Event.isDone = false

/-- The ghost latch: after an operation it is what its events make of it, one after the other; an acknowledged write sets
its byte (R38). Three clauses are the model's choices. The first write since reset leaves any byte: U3 says so, while R38
alone gives the acknowledged byte and R200 says that a model does not represent the unreliability (DEDUCED,
notes/assumptions/10.md). A failed write leaves the old or the new byte: R38 and U10 say so, while U1 (inside INIT) and U2
(in any other operation) say any value; and a failed `Bind` leaves the latch as it was (both DESIGN CHOICE,
notes/assumptions/23.md). -/
def Obligations.LatchFollowsWrites : Prop :=
  ∀ (i : Instr) (s t : State), exec i s = .next t →
    ∃ es, t.trace = s.trace ++ es ∧ t.xlatch = es.foldl XLatch.after s.xlatch

/-- The transport's answers are taken one for each `Bind` and `Wr`, in order (R61, R171; the fields are the model's,
notes/assumptions/6.md): after the operation the `k`-th next answer is the one that stood that many places later. -/
def Obligations.AnswersTakenInOrder : Prop :=
  ∀ (i : Instr) (s t : State), exec i s = .next t →
    ∃ es, t.trace = s.trace ++ es ∧ ∀ k, t.answerAt k = s.answerAt (answered es + k)

/-- Every operation ends, with at most 1530 bus writes (R143, R209). -/
def Obligations.EveryOperationEnds : Prop :=
  ∀ (i : Instr) (s : State), i.wf = true → Idle s →
    ∃ t es, exec i s = .next t ∧ t.trace = s.trace ++ es ∧ (es.filter Event.isWrite).length ≤ 1530

/-- The closed list of writers of the flag-merge file (R31): `DF` and `DM` only INIT; `DC` only INIT, DISPLAY,
NODISPLAY; `BL` only INIT, BACKLIGHT, NOBACKLIGHT; so CLEAR, HOME, SETCURSOR, CMD, DATA, PRINTS and PRINTN none. -/
def Obligations.FlagFileWriters : Prop :=
  ∀ (i : Instr) (s t : State), exec i s = .next t → isInit i = false →
    t.df = s.df ∧ t.dm = s.dm
    ∧ (i ≠ .display → i ≠ .nodisplay → t.dc = s.dc)
    ∧ (i ≠ .backlight → i ≠ .nobacklight → t.bl = s.bl)

/-- "Immutable after construction": no step writes a configuration register, and construction emits no event (R25). -/
def Obligations.ConfigurationIsImmutable : Prop :=
  (∀ s t : State, step s = .next t → t.addr = s.addr ∧ t.cols = s.cols ∧ t.rows = s.rows ∧ t.charSize = s.charSize)
  ∧ ∀ (p : Params) (st : Straps) (t : State), State.construct p st = .next t → t.trace = []

/-- The frame of the operations that only transmit, whatever their outcome (R120, R121, R122, R123, R140, R141, R154,
R155): configuration, `DF`, `DC`, `DM`, `BL`, `PHASE`, `BUSID` and the bytes at the port are unchanged. -/
def Obligations.TransmittingOperationsKeepRegisters : Prop :=
  ∀ (i : Instr) (s t : State), isInit i = false → i ≠ .display → i ≠ .nodisplay → i ≠ .backlight → i ≠ .nobacklight →
    exec i s = .next t → SameRegisters s t

/-- The frame of the switching operations, whatever their outcome (R124 to R127): DISPLAY and NODISPLAY leave everything
but `DC`, BACKLIGHT and NOBACKLIGHT everything but `BL`. -/
def Obligations.SwitchingOperationsKeepOtherRegisters : Prop :=
  ∀ s t : State,
    (exec .display s = .next t ∨ exec .nodisplay s = .next t → SameButDc s t)
    ∧ (exec .backlight s = .next t ∨ exec .nobacklight s = .next t → SameButBl s t)

/-- `PHASE` advances only inside INIT, and nothing but an INIT moves it out of `Ready` (R33, R186); `BUSID` is latched
only by INIT (R35). -/
def Obligations.PhaseMovesOnlyInInit : Prop :=
  ∀ s t : State, step s = .next t →
    (t.phase = s.phase ∧ t.busId = s.busId) ∨ ∃ busId rest, decode s.port = .packet (.init busId) rest ∧ t.busId = busId

/-! ### Reset and the invariant -/

/-- Construction (R190, R40): the straps are sampled, `PHASE = Unpowered`, `BUSY = 0`, the trace is empty, the latch is
unknown; it succeeds exactly for `ROWS` in 1..4. -/
def Obligations.ConstructionSamplesStraps : Prop :=
  ∀ (p : Params) (st : Straps),
    ((1 ≤ st.rows.toNat ∧ st.rows.toNat ≤ 4) ↔ ∃ t, State.construct p st = .next t)
    ∧ ∀ t, State.construct p st = .next t →
        t.addr = st.addr ∧ t.cols = st.cols ∧ t.rows = st.rows ∧ t.charSize = st.charSize ∧ t.par = p
        ∧ t.phase = .unpowered ∧ t.busy = false ∧ t.trace = [] ∧ t.xlatch = .unknown

/-- The reset state is a construction, with the straps and parameters of notes/assumptions/4.md and 5.md, and the
invariant holds there. -/
def Obligations.ResetMeetsInvariant : Prop :=
  State.construct Params.default Straps.default = .next State.reset ∧ Inv State.reset

/-- Every step keeps the invariant: the engine at rest, `DF`, `DC`, `DM` legal from their INIT step on (R27, R28, R29),
the backlight on while INIT is unfinished, every bus access to `ADDR` with the read/write line low (R51, R156), a trace
that ends with its `Done` (R68), the ghost latch as the trace says (R38, with
the model's choices of notes/assumptions/10.md and 23.md), no open enable pulse (R157). -/
def Obligations.StepKeepsInvariant : Prop :=
  ∀ s t : State, Inv s → step s = .next t → Inv t
end

