-- ==== Sys2Proof/Laws/Decode.lean ====
section
/-! SUPPORT. The parts of the packet format: the four bytes of a 32-bit operand, and what each format's reader accepts. -/

namespace Sys2Proof.Laws

/-- One bit of an operand assembled from four bytes. -/
theorem assemble_getLsbD (b3 b2 b1 b0 : Byte) (k : Nat) :
    (b3 ++ b2 ++ b1 ++ b0).getLsbD k
      = if k < 8 then b0.getLsbD k else if k - 8 < 8 then b1.getLsbD (k - 8)
        else if k - 8 - 8 < 8 then b2.getLsbD (k - 8 - 8) else b3.getLsbD (k - 8 - 8 - 8) := by
  rw [BitVec.getLsbD_append, BitVec.getLsbD_append, BitVec.getLsbD_append]

/-- The operand assembled from its bytes is the operand (30_encoding.md R84). -/
theorem assemble_wordBytes (n : Word) :
    n.extractLsb' 24 8 ++ n.extractLsb' 16 8 ++ n.extractLsb' 8 8 ++ n.extractLsb' 0 8 = n := by
  apply BitVec.eq_of_getLsbD_eq
  intro k hk
  rw [assemble_getLsbD]
  interval_cases k <;> simp

/-- The bytes of an assembled operand are the bytes it was assembled from (30_encoding.md R81). -/
theorem wordBytes_assemble (b3 b2 b1 b0 : Byte) : wordBytes (b3 ++ b2 ++ b1 ++ b0) = [b3, b2, b1, b0] := by
  simp only [wordBytes, List.cons.injEq, and_true]
  refine ⟨?_, ?_, ?_, ?_⟩ <;> apply BitVec.eq_of_getLsbD_eq <;> intro i hi <;>
    rw [BitVec.getLsbD_extractLsb', assemble_getLsbD] <;> interval_cases i <;> rfl

/-- An opcode byte is its number. -/
theorem byte_eq_of_toNat {op : Byte} {k : Nat} (h : op.toNat = k) : op = BitVec.ofNat 8 k := by
  rw [← h, BitVec.ofNat_toNat, BitVec.setWidth_eq]

theorem decodeB_packet {mk : Byte → Instr} {bytes rest : List Byte} {i : Instr}
    (h : decodeB mk bytes = .packet i rest) : ∃ b, bytes = b :: rest ∧ i = mk b := by
  cases bytes with
  | nil => cases h
  | cons b r => cases h; exact ⟨b, rfl, rfl⟩

theorem decodeCR_packet {mk : Byte → Byte → Instr} {bytes rest : List Byte} {i : Instr}
    (h : decodeCR mk bytes = .packet i rest) : ∃ c r, bytes = c :: r :: rest ∧ i = mk c r := by
  match bytes, h with
  | c :: r :: t, h => cases h; exact ⟨c, r, rfl, rfl⟩

theorem decodeS_packet {mk : List Byte → Instr} {bytes rest : List Byte} {i : Instr}
    (h : decodeS mk bytes = .packet i rest) :
    ∃ s, s.length ≤ 255 ∧ bytes = BitVec.ofNat 8 s.length :: (s ++ rest) ∧ i = mk s := by
  cases bytes with
  | nil => cases h
  | cons len r =>
    simp only [decodeS] at h
    split at h
    · rename_i hle
      simp only [Decoded.packet.injEq] at h
      obtain ⟨rfl, rfl⟩ := h
      have := len.isLt
      refine ⟨r.take len.toNat, by rw [List.length_take]; omega, ?_, rfl⟩
      rw [List.length_take, Nat.min_eq_left hle, List.take_append_drop, BitVec.ofNat_toNat, BitVec.setWidth_eq]
    · cases h

theorem decodeI_packet {mk : Word → Instr} {bytes rest : List Byte} {i : Instr}
    (h : decodeI mk bytes = .packet i rest) : ∃ n, bytes = wordBytes n ++ rest ∧ i = mk n := by
  match bytes, h with
  | b3 :: b2 :: b1 :: b0 :: t, h =>
    simp only [decodeI, Decoded.packet.injEq] at h
    obtain ⟨rfl, rfl⟩ := h
    exact ⟨_, by rw [wordBytes_assemble]; rfl, rfl⟩

theorem decodeS_append {mk : List Byte → Instr} {s : List Byte} (h : s.length ≤ 255) (rest : List Byte) :
    decodeS mk (BitVec.ofNat 8 s.length :: (s ++ rest)) = .packet (mk s) rest := by
  have hl : (BitVec.ofNat 8 s.length).toNat = s.length := by
    rw [BitVec.toNat_ofNat]; exact Nat.mod_eq_of_lt (by omega)
  simp [decodeS, hl]

theorem decodeI_append {mk : Word → Instr} (n : Word) (rest : List Byte) :
    decodeI mk (wordBytes n ++ rest) = .packet (mk n) rest := by
  simp only [wordBytes, List.cons_append, List.nil_append, decodeI, assemble_wordBytes]

end Sys2Proof.Laws
end

