-- ==== Sys2Proof/Laws/State.lean ====
section
/-! SUPPORT. What each update of the state does to each field: one lemma per field per update, so that no proof
unfolds a record update; and the transport's answers under the updates. -/

namespace Sys2Proof.Laws

open Sys2Proof.Machine

/-! ### `State.setPhase` -/

@[simp] theorem setPhase_addr (p : Phase) (s : State) : (s.setPhase p).addr = s.addr := rfl
@[simp] theorem setPhase_cols (p : Phase) (s : State) : (s.setPhase p).cols = s.cols := rfl
@[simp] theorem setPhase_rows (p : Phase) (s : State) : (s.setPhase p).rows = s.rows := rfl
@[simp] theorem setPhase_charSize (p : Phase) (s : State) : (s.setPhase p).charSize = s.charSize := rfl
@[simp] theorem setPhase_df (p : Phase) (s : State) : (s.setPhase p).df = s.df := rfl
@[simp] theorem setPhase_dc (p : Phase) (s : State) : (s.setPhase p).dc = s.dc := rfl
@[simp] theorem setPhase_dm (p : Phase) (s : State) : (s.setPhase p).dm = s.dm := rfl
@[simp] theorem setPhase_bl (p : Phase) (s : State) : (s.setPhase p).bl = s.bl := rfl
@[simp] theorem setPhase_phase (p : Phase) (s : State) : (s.setPhase p).phase = p := rfl
@[simp] theorem setPhase_busy (p : Phase) (s : State) : (s.setPhase p).busy = s.busy := rfl
@[simp] theorem setPhase_upc (p : Phase) (s : State) : (s.setPhase p).upc = s.upc := rfl
@[simp] theorem setPhase_busId (p : Phase) (s : State) : (s.setPhase p).busId = s.busId := rfl
@[simp] theorem setPhase_status (p : Phase) (s : State) : (s.setPhase p).status = s.status := rfl
@[simp] theorem setPhase_value (p : Phase) (s : State) : (s.setPhase p).value = s.value := rfl
@[simp] theorem setPhase_xlatch (p : Phase) (s : State) : (s.setPhase p).xlatch = s.xlatch := rfl
@[simp] theorem setPhase_trace (p : Phase) (s : State) : (s.setPhase p).trace = s.trace := rfl
@[simp] theorem setPhase_port (p : Phase) (s : State) : (s.setPhase p).port = s.port := rfl
@[simp] theorem setPhase_answers (p : Phase) (s : State) : (s.setPhase p).answers = s.answers := rfl
@[simp] theorem setPhase_asked (p : Phase) (s : State) : (s.setPhase p).asked = s.asked := rfl
@[simp] theorem setPhase_par (p : Phase) (s : State) : (s.setPhase p).par = s.par := rfl

/-! ### `State.setBusId` -/

@[simp] theorem setBusId_addr (v : Byte) (s : State) : (s.setBusId v).addr = s.addr := rfl
@[simp] theorem setBusId_cols (v : Byte) (s : State) : (s.setBusId v).cols = s.cols := rfl
@[simp] theorem setBusId_rows (v : Byte) (s : State) : (s.setBusId v).rows = s.rows := rfl
@[simp] theorem setBusId_charSize (v : Byte) (s : State) : (s.setBusId v).charSize = s.charSize := rfl
@[simp] theorem setBusId_df (v : Byte) (s : State) : (s.setBusId v).df = s.df := rfl
@[simp] theorem setBusId_dc (v : Byte) (s : State) : (s.setBusId v).dc = s.dc := rfl
@[simp] theorem setBusId_dm (v : Byte) (s : State) : (s.setBusId v).dm = s.dm := rfl
@[simp] theorem setBusId_bl (v : Byte) (s : State) : (s.setBusId v).bl = s.bl := rfl
@[simp] theorem setBusId_phase (v : Byte) (s : State) : (s.setBusId v).phase = s.phase := rfl
@[simp] theorem setBusId_busy (v : Byte) (s : State) : (s.setBusId v).busy = s.busy := rfl
@[simp] theorem setBusId_upc (v : Byte) (s : State) : (s.setBusId v).upc = s.upc := rfl
@[simp] theorem setBusId_busId (v : Byte) (s : State) : (s.setBusId v).busId = v := rfl
@[simp] theorem setBusId_status (v : Byte) (s : State) : (s.setBusId v).status = s.status := rfl
@[simp] theorem setBusId_value (v : Byte) (s : State) : (s.setBusId v).value = s.value := rfl
@[simp] theorem setBusId_xlatch (v : Byte) (s : State) : (s.setBusId v).xlatch = s.xlatch := rfl
@[simp] theorem setBusId_trace (v : Byte) (s : State) : (s.setBusId v).trace = s.trace := rfl
@[simp] theorem setBusId_port (v : Byte) (s : State) : (s.setBusId v).port = s.port := rfl
@[simp] theorem setBusId_answers (v : Byte) (s : State) : (s.setBusId v).answers = s.answers := rfl
@[simp] theorem setBusId_asked (v : Byte) (s : State) : (s.setBusId v).asked = s.asked := rfl
@[simp] theorem setBusId_par (v : Byte) (s : State) : (s.setBusId v).par = s.par := rfl

/-! ### `State.setBl` -/

@[simp] theorem setBl_addr (b : Bool) (s : State) : (s.setBl b).addr = s.addr := rfl
@[simp] theorem setBl_cols (b : Bool) (s : State) : (s.setBl b).cols = s.cols := rfl
@[simp] theorem setBl_rows (b : Bool) (s : State) : (s.setBl b).rows = s.rows := rfl
@[simp] theorem setBl_charSize (b : Bool) (s : State) : (s.setBl b).charSize = s.charSize := rfl
@[simp] theorem setBl_df (b : Bool) (s : State) : (s.setBl b).df = s.df := rfl
@[simp] theorem setBl_dc (b : Bool) (s : State) : (s.setBl b).dc = s.dc := rfl
@[simp] theorem setBl_dm (b : Bool) (s : State) : (s.setBl b).dm = s.dm := rfl
@[simp] theorem setBl_bl (b : Bool) (s : State) : (s.setBl b).bl = b := rfl
@[simp] theorem setBl_phase (b : Bool) (s : State) : (s.setBl b).phase = s.phase := rfl
@[simp] theorem setBl_busy (b : Bool) (s : State) : (s.setBl b).busy = s.busy := rfl
@[simp] theorem setBl_upc (b : Bool) (s : State) : (s.setBl b).upc = s.upc := rfl
@[simp] theorem setBl_busId (b : Bool) (s : State) : (s.setBl b).busId = s.busId := rfl
@[simp] theorem setBl_status (b : Bool) (s : State) : (s.setBl b).status = s.status := rfl
@[simp] theorem setBl_value (b : Bool) (s : State) : (s.setBl b).value = s.value := rfl
@[simp] theorem setBl_xlatch (b : Bool) (s : State) : (s.setBl b).xlatch = s.xlatch := rfl
@[simp] theorem setBl_trace (b : Bool) (s : State) : (s.setBl b).trace = s.trace := rfl
@[simp] theorem setBl_port (b : Bool) (s : State) : (s.setBl b).port = s.port := rfl
@[simp] theorem setBl_answers (b : Bool) (s : State) : (s.setBl b).answers = s.answers := rfl
@[simp] theorem setBl_asked (b : Bool) (s : State) : (s.setBl b).asked = s.asked := rfl
@[simp] theorem setBl_par (b : Bool) (s : State) : (s.setBl b).par = s.par := rfl

/-! ### `State.setDf` -/

@[simp] theorem setDf_addr (v : Byte) (s : State) : (s.setDf v).addr = s.addr := rfl
@[simp] theorem setDf_cols (v : Byte) (s : State) : (s.setDf v).cols = s.cols := rfl
@[simp] theorem setDf_rows (v : Byte) (s : State) : (s.setDf v).rows = s.rows := rfl
@[simp] theorem setDf_charSize (v : Byte) (s : State) : (s.setDf v).charSize = s.charSize := rfl
@[simp] theorem setDf_df (v : Byte) (s : State) : (s.setDf v).df = v := rfl
@[simp] theorem setDf_dc (v : Byte) (s : State) : (s.setDf v).dc = s.dc := rfl
@[simp] theorem setDf_dm (v : Byte) (s : State) : (s.setDf v).dm = s.dm := rfl
@[simp] theorem setDf_bl (v : Byte) (s : State) : (s.setDf v).bl = s.bl := rfl
@[simp] theorem setDf_phase (v : Byte) (s : State) : (s.setDf v).phase = s.phase := rfl
@[simp] theorem setDf_busy (v : Byte) (s : State) : (s.setDf v).busy = s.busy := rfl
@[simp] theorem setDf_upc (v : Byte) (s : State) : (s.setDf v).upc = s.upc := rfl
@[simp] theorem setDf_busId (v : Byte) (s : State) : (s.setDf v).busId = s.busId := rfl
@[simp] theorem setDf_status (v : Byte) (s : State) : (s.setDf v).status = s.status := rfl
@[simp] theorem setDf_value (v : Byte) (s : State) : (s.setDf v).value = s.value := rfl
@[simp] theorem setDf_xlatch (v : Byte) (s : State) : (s.setDf v).xlatch = s.xlatch := rfl
@[simp] theorem setDf_trace (v : Byte) (s : State) : (s.setDf v).trace = s.trace := rfl
@[simp] theorem setDf_port (v : Byte) (s : State) : (s.setDf v).port = s.port := rfl
@[simp] theorem setDf_answers (v : Byte) (s : State) : (s.setDf v).answers = s.answers := rfl
@[simp] theorem setDf_asked (v : Byte) (s : State) : (s.setDf v).asked = s.asked := rfl
@[simp] theorem setDf_par (v : Byte) (s : State) : (s.setDf v).par = s.par := rfl

/-! ### `State.setDc` -/

@[simp] theorem setDc_addr (v : Byte) (s : State) : (s.setDc v).addr = s.addr := rfl
@[simp] theorem setDc_cols (v : Byte) (s : State) : (s.setDc v).cols = s.cols := rfl
@[simp] theorem setDc_rows (v : Byte) (s : State) : (s.setDc v).rows = s.rows := rfl
@[simp] theorem setDc_charSize (v : Byte) (s : State) : (s.setDc v).charSize = s.charSize := rfl
@[simp] theorem setDc_df (v : Byte) (s : State) : (s.setDc v).df = s.df := rfl
@[simp] theorem setDc_dc (v : Byte) (s : State) : (s.setDc v).dc = v := rfl
@[simp] theorem setDc_dm (v : Byte) (s : State) : (s.setDc v).dm = s.dm := rfl
@[simp] theorem setDc_bl (v : Byte) (s : State) : (s.setDc v).bl = s.bl := rfl
@[simp] theorem setDc_phase (v : Byte) (s : State) : (s.setDc v).phase = s.phase := rfl
@[simp] theorem setDc_busy (v : Byte) (s : State) : (s.setDc v).busy = s.busy := rfl
@[simp] theorem setDc_upc (v : Byte) (s : State) : (s.setDc v).upc = s.upc := rfl
@[simp] theorem setDc_busId (v : Byte) (s : State) : (s.setDc v).busId = s.busId := rfl
@[simp] theorem setDc_status (v : Byte) (s : State) : (s.setDc v).status = s.status := rfl
@[simp] theorem setDc_value (v : Byte) (s : State) : (s.setDc v).value = s.value := rfl
@[simp] theorem setDc_xlatch (v : Byte) (s : State) : (s.setDc v).xlatch = s.xlatch := rfl
@[simp] theorem setDc_trace (v : Byte) (s : State) : (s.setDc v).trace = s.trace := rfl
@[simp] theorem setDc_port (v : Byte) (s : State) : (s.setDc v).port = s.port := rfl
@[simp] theorem setDc_answers (v : Byte) (s : State) : (s.setDc v).answers = s.answers := rfl
@[simp] theorem setDc_asked (v : Byte) (s : State) : (s.setDc v).asked = s.asked := rfl
@[simp] theorem setDc_par (v : Byte) (s : State) : (s.setDc v).par = s.par := rfl

/-! ### `State.setDm` -/

@[simp] theorem setDm_addr (v : Byte) (s : State) : (s.setDm v).addr = s.addr := rfl
@[simp] theorem setDm_cols (v : Byte) (s : State) : (s.setDm v).cols = s.cols := rfl
@[simp] theorem setDm_rows (v : Byte) (s : State) : (s.setDm v).rows = s.rows := rfl
@[simp] theorem setDm_charSize (v : Byte) (s : State) : (s.setDm v).charSize = s.charSize := rfl
@[simp] theorem setDm_df (v : Byte) (s : State) : (s.setDm v).df = s.df := rfl
@[simp] theorem setDm_dc (v : Byte) (s : State) : (s.setDm v).dc = s.dc := rfl
@[simp] theorem setDm_dm (v : Byte) (s : State) : (s.setDm v).dm = v := rfl
@[simp] theorem setDm_bl (v : Byte) (s : State) : (s.setDm v).bl = s.bl := rfl
@[simp] theorem setDm_phase (v : Byte) (s : State) : (s.setDm v).phase = s.phase := rfl
@[simp] theorem setDm_busy (v : Byte) (s : State) : (s.setDm v).busy = s.busy := rfl
@[simp] theorem setDm_upc (v : Byte) (s : State) : (s.setDm v).upc = s.upc := rfl
@[simp] theorem setDm_busId (v : Byte) (s : State) : (s.setDm v).busId = s.busId := rfl
@[simp] theorem setDm_status (v : Byte) (s : State) : (s.setDm v).status = s.status := rfl
@[simp] theorem setDm_value (v : Byte) (s : State) : (s.setDm v).value = s.value := rfl
@[simp] theorem setDm_xlatch (v : Byte) (s : State) : (s.setDm v).xlatch = s.xlatch := rfl
@[simp] theorem setDm_trace (v : Byte) (s : State) : (s.setDm v).trace = s.trace := rfl
@[simp] theorem setDm_port (v : Byte) (s : State) : (s.setDm v).port = s.port := rfl
@[simp] theorem setDm_answers (v : Byte) (s : State) : (s.setDm v).answers = s.answers := rfl
@[simp] theorem setDm_asked (v : Byte) (s : State) : (s.setDm v).asked = s.asked := rfl
@[simp] theorem setDm_par (v : Byte) (s : State) : (s.setDm v).par = s.par := rfl

/-! ### `State.setLatch` -/

@[simp] theorem setLatch_addr (x : XLatch) (s : State) : (s.setLatch x).addr = s.addr := rfl
@[simp] theorem setLatch_cols (x : XLatch) (s : State) : (s.setLatch x).cols = s.cols := rfl
@[simp] theorem setLatch_rows (x : XLatch) (s : State) : (s.setLatch x).rows = s.rows := rfl
@[simp] theorem setLatch_charSize (x : XLatch) (s : State) : (s.setLatch x).charSize = s.charSize := rfl
@[simp] theorem setLatch_df (x : XLatch) (s : State) : (s.setLatch x).df = s.df := rfl
@[simp] theorem setLatch_dc (x : XLatch) (s : State) : (s.setLatch x).dc = s.dc := rfl
@[simp] theorem setLatch_dm (x : XLatch) (s : State) : (s.setLatch x).dm = s.dm := rfl
@[simp] theorem setLatch_bl (x : XLatch) (s : State) : (s.setLatch x).bl = s.bl := rfl
@[simp] theorem setLatch_phase (x : XLatch) (s : State) : (s.setLatch x).phase = s.phase := rfl
@[simp] theorem setLatch_busy (x : XLatch) (s : State) : (s.setLatch x).busy = s.busy := rfl
@[simp] theorem setLatch_upc (x : XLatch) (s : State) : (s.setLatch x).upc = s.upc := rfl
@[simp] theorem setLatch_busId (x : XLatch) (s : State) : (s.setLatch x).busId = s.busId := rfl
@[simp] theorem setLatch_status (x : XLatch) (s : State) : (s.setLatch x).status = s.status := rfl
@[simp] theorem setLatch_value (x : XLatch) (s : State) : (s.setLatch x).value = s.value := rfl
@[simp] theorem setLatch_xlatch (x : XLatch) (s : State) : (s.setLatch x).xlatch = x := rfl
@[simp] theorem setLatch_trace (x : XLatch) (s : State) : (s.setLatch x).trace = s.trace := rfl
@[simp] theorem setLatch_port (x : XLatch) (s : State) : (s.setLatch x).port = s.port := rfl
@[simp] theorem setLatch_answers (x : XLatch) (s : State) : (s.setLatch x).answers = s.answers := rfl
@[simp] theorem setLatch_asked (x : XLatch) (s : State) : (s.setLatch x).asked = s.asked := rfl
@[simp] theorem setLatch_par (x : XLatch) (s : State) : (s.setLatch x).par = s.par := rfl

/-! ### `State.emit` -/

@[simp] theorem emit_addr (e : Event) (s : State) : (s.emit e).addr = s.addr := rfl
@[simp] theorem emit_cols (e : Event) (s : State) : (s.emit e).cols = s.cols := rfl
@[simp] theorem emit_rows (e : Event) (s : State) : (s.emit e).rows = s.rows := rfl
@[simp] theorem emit_charSize (e : Event) (s : State) : (s.emit e).charSize = s.charSize := rfl
@[simp] theorem emit_df (e : Event) (s : State) : (s.emit e).df = s.df := rfl
@[simp] theorem emit_dc (e : Event) (s : State) : (s.emit e).dc = s.dc := rfl
@[simp] theorem emit_dm (e : Event) (s : State) : (s.emit e).dm = s.dm := rfl
@[simp] theorem emit_bl (e : Event) (s : State) : (s.emit e).bl = s.bl := rfl
@[simp] theorem emit_phase (e : Event) (s : State) : (s.emit e).phase = s.phase := rfl
@[simp] theorem emit_busy (e : Event) (s : State) : (s.emit e).busy = s.busy := rfl
@[simp] theorem emit_upc (e : Event) (s : State) : (s.emit e).upc = s.upc := rfl
@[simp] theorem emit_busId (e : Event) (s : State) : (s.emit e).busId = s.busId := rfl
@[simp] theorem emit_status (e : Event) (s : State) : (s.emit e).status = s.status := rfl
@[simp] theorem emit_value (e : Event) (s : State) : (s.emit e).value = s.value := rfl
@[simp] theorem emit_xlatch (e : Event) (s : State) : (s.emit e).xlatch = s.xlatch := rfl
@[simp] theorem emit_trace (e : Event) (s : State) : (s.emit e).trace = s.trace ++ [e] := rfl
@[simp] theorem emit_port (e : Event) (s : State) : (s.emit e).port = s.port := rfl
@[simp] theorem emit_answers (e : Event) (s : State) : (s.emit e).answers = s.answers := rfl
@[simp] theorem emit_asked (e : Event) (s : State) : (s.emit e).asked = s.asked := rfl
@[simp] theorem emit_par (e : Event) (s : State) : (s.emit e).par = s.par := rfl

/-! ### `State.advance` -/

@[simp] theorem advance_addr (s : State) : (s.advance).addr = s.addr := rfl
@[simp] theorem advance_cols (s : State) : (s.advance).cols = s.cols := rfl
@[simp] theorem advance_rows (s : State) : (s.advance).rows = s.rows := rfl
@[simp] theorem advance_charSize (s : State) : (s.advance).charSize = s.charSize := rfl
@[simp] theorem advance_df (s : State) : (s.advance).df = s.df := rfl
@[simp] theorem advance_dc (s : State) : (s.advance).dc = s.dc := rfl
@[simp] theorem advance_dm (s : State) : (s.advance).dm = s.dm := rfl
@[simp] theorem advance_bl (s : State) : (s.advance).bl = s.bl := rfl
@[simp] theorem advance_phase (s : State) : (s.advance).phase = s.phase := rfl
@[simp] theorem advance_busy (s : State) : (s.advance).busy = s.busy := rfl
@[simp] theorem advance_upc (s : State) : (s.advance).upc = s.upc + 1 := rfl
@[simp] theorem advance_busId (s : State) : (s.advance).busId = s.busId := rfl
@[simp] theorem advance_status (s : State) : (s.advance).status = s.status := rfl
@[simp] theorem advance_value (s : State) : (s.advance).value = s.value := rfl
@[simp] theorem advance_xlatch (s : State) : (s.advance).xlatch = s.xlatch := rfl
@[simp] theorem advance_trace (s : State) : (s.advance).trace = s.trace := rfl
@[simp] theorem advance_port (s : State) : (s.advance).port = s.port := rfl
@[simp] theorem advance_answers (s : State) : (s.advance).answers = s.answers := rfl
@[simp] theorem advance_asked (s : State) : (s.advance).asked = s.asked := rfl
@[simp] theorem advance_par (s : State) : (s.advance).par = s.par := rfl

/-! ### `State.takeAnswer` -/

@[simp] theorem takeAnswer_addr (s : State) : (s.takeAnswer).addr = s.addr := rfl
@[simp] theorem takeAnswer_cols (s : State) : (s.takeAnswer).cols = s.cols := rfl
@[simp] theorem takeAnswer_rows (s : State) : (s.takeAnswer).rows = s.rows := rfl
@[simp] theorem takeAnswer_charSize (s : State) : (s.takeAnswer).charSize = s.charSize := rfl
@[simp] theorem takeAnswer_df (s : State) : (s.takeAnswer).df = s.df := rfl
@[simp] theorem takeAnswer_dc (s : State) : (s.takeAnswer).dc = s.dc := rfl
@[simp] theorem takeAnswer_dm (s : State) : (s.takeAnswer).dm = s.dm := rfl
@[simp] theorem takeAnswer_bl (s : State) : (s.takeAnswer).bl = s.bl := rfl
@[simp] theorem takeAnswer_phase (s : State) : (s.takeAnswer).phase = s.phase := rfl
@[simp] theorem takeAnswer_busy (s : State) : (s.takeAnswer).busy = s.busy := rfl
@[simp] theorem takeAnswer_upc (s : State) : (s.takeAnswer).upc = s.upc := rfl
@[simp] theorem takeAnswer_busId (s : State) : (s.takeAnswer).busId = s.busId := rfl
@[simp] theorem takeAnswer_status (s : State) : (s.takeAnswer).status = s.status := rfl
@[simp] theorem takeAnswer_value (s : State) : (s.takeAnswer).value = s.value := rfl
@[simp] theorem takeAnswer_xlatch (s : State) : (s.takeAnswer).xlatch = s.xlatch := rfl
@[simp] theorem takeAnswer_trace (s : State) : (s.takeAnswer).trace = s.trace := rfl
@[simp] theorem takeAnswer_port (s : State) : (s.takeAnswer).port = s.port := rfl
@[simp] theorem takeAnswer_answers (s : State) : (s.takeAnswer).answers = s.answers.tail := rfl
@[simp] theorem takeAnswer_asked (s : State) : (s.takeAnswer).asked = s.asked + 1 := rfl
@[simp] theorem takeAnswer_par (s : State) : (s.takeAnswer).par = s.par := rfl

/-! ### `State.setPort` -/

@[simp] theorem setPort_addr (bytes : List Byte) (s : State) : (s.setPort bytes).addr = s.addr := rfl
@[simp] theorem setPort_cols (bytes : List Byte) (s : State) : (s.setPort bytes).cols = s.cols := rfl
@[simp] theorem setPort_rows (bytes : List Byte) (s : State) : (s.setPort bytes).rows = s.rows := rfl
@[simp] theorem setPort_charSize (bytes : List Byte) (s : State) : (s.setPort bytes).charSize = s.charSize := rfl
@[simp] theorem setPort_df (bytes : List Byte) (s : State) : (s.setPort bytes).df = s.df := rfl
@[simp] theorem setPort_dc (bytes : List Byte) (s : State) : (s.setPort bytes).dc = s.dc := rfl
@[simp] theorem setPort_dm (bytes : List Byte) (s : State) : (s.setPort bytes).dm = s.dm := rfl
@[simp] theorem setPort_bl (bytes : List Byte) (s : State) : (s.setPort bytes).bl = s.bl := rfl
@[simp] theorem setPort_phase (bytes : List Byte) (s : State) : (s.setPort bytes).phase = s.phase := rfl
@[simp] theorem setPort_busy (bytes : List Byte) (s : State) : (s.setPort bytes).busy = s.busy := rfl
@[simp] theorem setPort_upc (bytes : List Byte) (s : State) : (s.setPort bytes).upc = s.upc := rfl
@[simp] theorem setPort_busId (bytes : List Byte) (s : State) : (s.setPort bytes).busId = s.busId := rfl
@[simp] theorem setPort_status (bytes : List Byte) (s : State) : (s.setPort bytes).status = s.status := rfl
@[simp] theorem setPort_value (bytes : List Byte) (s : State) : (s.setPort bytes).value = s.value := rfl
@[simp] theorem setPort_xlatch (bytes : List Byte) (s : State) : (s.setPort bytes).xlatch = s.xlatch := rfl
@[simp] theorem setPort_trace (bytes : List Byte) (s : State) : (s.setPort bytes).trace = s.trace := rfl
@[simp] theorem setPort_port (bytes : List Byte) (s : State) : (s.setPort bytes).port = bytes := rfl
@[simp] theorem setPort_answers (bytes : List Byte) (s : State) : (s.setPort bytes).answers = s.answers := rfl
@[simp] theorem setPort_asked (bytes : List Byte) (s : State) : (s.setPort bytes).asked = s.asked := rfl
@[simp] theorem setPort_par (bytes : List Byte) (s : State) : (s.setPort bytes).par = s.par := rfl

/-! ### `State.accept` -/

@[simp] theorem accept_addr (s : State) : (s.accept).addr = s.addr := rfl
@[simp] theorem accept_cols (s : State) : (s.accept).cols = s.cols := rfl
@[simp] theorem accept_rows (s : State) : (s.accept).rows = s.rows := rfl
@[simp] theorem accept_charSize (s : State) : (s.accept).charSize = s.charSize := rfl
@[simp] theorem accept_df (s : State) : (s.accept).df = s.df := rfl
@[simp] theorem accept_dc (s : State) : (s.accept).dc = s.dc := rfl
@[simp] theorem accept_dm (s : State) : (s.accept).dm = s.dm := rfl
@[simp] theorem accept_bl (s : State) : (s.accept).bl = s.bl := rfl
@[simp] theorem accept_phase (s : State) : (s.accept).phase = s.phase := rfl
@[simp] theorem accept_busy (s : State) : (s.accept).busy = true := rfl
@[simp] theorem accept_upc (s : State) : (s.accept).upc = 0 := rfl
@[simp] theorem accept_busId (s : State) : (s.accept).busId = s.busId := rfl
@[simp] theorem accept_status (s : State) : (s.accept).status = s.status := rfl
@[simp] theorem accept_value (s : State) : (s.accept).value = s.value := rfl
@[simp] theorem accept_xlatch (s : State) : (s.accept).xlatch = s.xlatch := rfl
@[simp] theorem accept_trace (s : State) : (s.accept).trace = s.trace := rfl
@[simp] theorem accept_port (s : State) : (s.accept).port = s.port := rfl
@[simp] theorem accept_answers (s : State) : (s.accept).answers = s.answers := rfl
@[simp] theorem accept_asked (s : State) : (s.accept).asked = s.asked := rfl
@[simp] theorem accept_par (s : State) : (s.accept).par = s.par := rfl

/-! ### `State.complete` -/

@[simp] theorem complete_addr (st : Status) (v : Byte) (s : State) : (s.complete st v).addr = s.addr := rfl
@[simp] theorem complete_cols (st : Status) (v : Byte) (s : State) : (s.complete st v).cols = s.cols := rfl
@[simp] theorem complete_rows (st : Status) (v : Byte) (s : State) : (s.complete st v).rows = s.rows := rfl
@[simp] theorem complete_charSize (st : Status) (v : Byte) (s : State) : (s.complete st v).charSize = s.charSize := rfl
@[simp] theorem complete_df (st : Status) (v : Byte) (s : State) : (s.complete st v).df = s.df := rfl
@[simp] theorem complete_dc (st : Status) (v : Byte) (s : State) : (s.complete st v).dc = s.dc := rfl
@[simp] theorem complete_dm (st : Status) (v : Byte) (s : State) : (s.complete st v).dm = s.dm := rfl
@[simp] theorem complete_bl (st : Status) (v : Byte) (s : State) : (s.complete st v).bl = s.bl := rfl
@[simp] theorem complete_phase (st : Status) (v : Byte) (s : State) : (s.complete st v).phase = s.phase := rfl
@[simp] theorem complete_busy (st : Status) (v : Byte) (s : State) : (s.complete st v).busy = false := rfl
@[simp] theorem complete_upc (st : Status) (v : Byte) (s : State) : (s.complete st v).upc = s.upc := rfl
@[simp] theorem complete_busId (st : Status) (v : Byte) (s : State) : (s.complete st v).busId = s.busId := rfl
@[simp] theorem complete_status (st : Status) (v : Byte) (s : State) : (s.complete st v).status = st := rfl
@[simp] theorem complete_value (st : Status) (v : Byte) (s : State) : (s.complete st v).value = v := rfl
@[simp] theorem complete_xlatch (st : Status) (v : Byte) (s : State) : (s.complete st v).xlatch = s.xlatch := rfl
@[simp] theorem complete_trace (st : Status) (v : Byte) (s : State) : (s.complete st v).trace = s.trace ++ [.done st v] := rfl
@[simp] theorem complete_port (st : Status) (v : Byte) (s : State) : (s.complete st v).port = s.port := rfl
@[simp] theorem complete_answers (st : Status) (v : Byte) (s : State) : (s.complete st v).answers = s.answers := rfl
@[simp] theorem complete_asked (st : Status) (v : Byte) (s : State) : (s.complete st v).asked = s.asked := rfl
@[simp] theorem complete_par (st : Status) (v : Byte) (s : State) : (s.complete st v).par = s.par := rfl

/-! ### The transport's answers -/

theorem answer_eq_answerAt (s : State) : s.answer = s.answerAt 0 := by
  unfold State.answer State.answerAt
  cases s.answers <;> rfl

@[simp] theorem takeAnswer_answerAt (s : State) (k : Nat) : s.takeAnswer.answerAt k = s.answerAt (k + 1) := by
  unfold State.answerAt
  simp only [takeAnswer_answers, takeAnswer_asked, List.getElem?_tail, Nat.add_assoc, Nat.add_comm 1 k]

/-- The answers still to come depend on the script and the counter alone. -/
theorem answerAt_congr {s t : State} (h₁ : t.answers = s.answers) (h₂ : t.asked = s.asked) (k : Nat) :
    t.answerAt k = s.answerAt k := by
  simp only [State.answerAt, h₁, h₂]

@[simp] theorem setPhase_answerAt (p : Phase) (s : State) (k : Nat) : (s.setPhase p).answerAt k = s.answerAt k := rfl
@[simp] theorem setBusId_answerAt (v : Byte) (s : State) (k : Nat) : (s.setBusId v).answerAt k = s.answerAt k := rfl
@[simp] theorem setBl_answerAt (b : Bool) (s : State) (k : Nat) : (s.setBl b).answerAt k = s.answerAt k := rfl
@[simp] theorem setDf_answerAt (v : Byte) (s : State) (k : Nat) : (s.setDf v).answerAt k = s.answerAt k := rfl
@[simp] theorem setDc_answerAt (v : Byte) (s : State) (k : Nat) : (s.setDc v).answerAt k = s.answerAt k := rfl
@[simp] theorem setDm_answerAt (v : Byte) (s : State) (k : Nat) : (s.setDm v).answerAt k = s.answerAt k := rfl
@[simp] theorem setLatch_answerAt (x : XLatch) (s : State) (k : Nat) : (s.setLatch x).answerAt k = s.answerAt k := rfl
@[simp] theorem emit_answerAt (e : Event) (s : State) (k : Nat) : (s.emit e).answerAt k = s.answerAt k := rfl
@[simp] theorem advance_answerAt (s : State) (k : Nat) : (s.advance).answerAt k = s.answerAt k := rfl
@[simp] theorem setPort_answerAt (bytes : List Byte) (s : State) (k : Nat) : (s.setPort bytes).answerAt k = s.answerAt k := rfl
@[simp] theorem accept_answerAt (s : State) (k : Nat) : (s.accept).answerAt k = s.answerAt k := rfl
@[simp] theorem complete_answerAt (st : Status) (v : Byte) (s : State) (k : Nat) : (s.complete st v).answerAt k = s.answerAt k := rfl

end Sys2Proof.Laws
end

