-- ==== Sys2Proof/Laws/Ops.lean ====
section
/-! SUPPORT. What a list of micro-operations does, said once: its frame, its events, its answers, its register writes;
and what admission can answer. Later proofs cite these and never unfold `runOps`, `perform` or `admission`. -/

namespace Sys2Proof.Laws

open Sys2Proof.Config (Answer Params)
open Sys2Proof.Machine Sys2Proof.Safety

/-! ### The effect of a list of micro-operations, read off the list -/

/-- The register write of a micro-operation, alone. -/
def regWrite : MicroOp → State → State
  | .setPhase p, s => s.setPhase p
  | .setBusId v, s => s.setBusId v
  | .setBl b, s => s.setBl b
  | .setDf v, s => s.setDf v
  | .setDc v, s => s.setDc v
  | .setDm v, s => s.setDm v
  | .bind _, s => s
  | .write _, s => s
  | .delay _, s => s

/-- The register writes of a list, in order. -/
def regWrites (ops : List MicroOp) (s : State) : State := ops.foldl (fun s m => regWrite m s) s

/-- Whether a micro-operation asks the transport. -/
def asks : MicroOp → Bool
  | .bind _ => true
  | .write _ => true
  | .setPhase _ | .setBusId _ | .setBl _ | .setDf _ | .setDc _ | .setDm _ | .delay _ => false

/-- How many questions a list asks the transport. -/
def asksOf (ops : List MicroOp) : Nat := (ops.filter asks).length

/-- The events a list is to produce, `BL` being `bl` before it. -/
def wants : Bool → List MicroOp → List Want
  | _, [] => []
  | bl, .bind id :: ms => .bind id :: wants bl ms
  | bl, .write d :: ms => .wr (d ||| blbit bl) :: wants bl ms
  | bl, .delay n :: ms => .dly n :: wants bl ms
  | _, .setBl b :: ms => wants b ms
  | bl, .setPhase _ :: ms => wants bl ms
  | bl, .setBusId _ :: ms => wants bl ms
  | bl, .setDf _ :: ms => wants bl ms
  | bl, .setDc _ :: ms => wants bl ms
  | bl, .setDm _ :: ms => wants bl ms

/-- The micro-operations before question `j` of a list (all of them if it asks no more than `j`). -/
def beforeQuestion : Nat → List MicroOp → List MicroOp
  | _, [] => []
  | 0, m :: ms => if asks m then [] else m :: beforeQuestion 0 ms
  | j + 1, m :: ms => if asks m then m :: beforeQuestion j ms else m :: beforeQuestion (j + 1) ms

/-- The micro-operation is a bus write or a wait. -/
def isBus : MicroOp → Bool
  | .write _ => true
  | .delay _ => true
  | .setPhase _ | .setBusId _ | .setBl _ | .setDf _ | .setDc _ | .setDm _ | .bind _ => false

/-- The list writes no register: bus writes and waits only. -/
def busOnly (ops : List MicroOp) : Bool := ops.all isBus

/-! ### Small equations -/

@[simp] theorem runOps_nil (s : State) : runOps [] s = .completed s := rfl

theorem runOps_cons_completed {m : MicroOp} {s s' : State} (h : perform m s = .completed s') (ms : List MicroOp) :
    runOps (m :: ms) s = runOps ms s' := by
  simp only [runOps, h]

theorem runOps_cons_stopped {m : MicroOp} {s s' : State} (h : perform m s = .stopped s') (ms : List MicroOp) :
    runOps (m :: ms) s = .stopped s' := by
  simp only [runOps, h]

/-- A list runs as its first part and then, if that completed, its second. -/
theorem runOps_append (as bs : List MicroOp) (s : State) :
    runOps (as ++ bs) s = match runOps as s with
      | .completed s' => runOps bs s'
      | .stopped s' => .stopped s' := by
  induction as generalizing s with
  | nil => rfl
  | cons m ms ih =>
    simp only [List.cons_append, runOps]
    cases perform m s with
    | completed s' => exact ih s'
    | stopped s' => rfl

theorem asksOf_cons (m : MicroOp) (ms : List MicroOp) :
    asksOf (m :: ms) = (if asks m then 1 else 0) + asksOf ms := by
  unfold asksOf
  cases h : asks m <;> simp [h]; omega

theorem asksOf_append (as bs : List MicroOp) : asksOf (as ++ bs) = asksOf as + asksOf bs := by
  simp [asksOf]

theorem questions_cons (w : Want) (ws : List Want) :
    questions (w :: ws) = (if w.asks then 1 else 0) + questions ws := by
  unfold questions
  cases h : w.asks <;> simp [h]; omega

theorem questions_append (as bs : List Want) : questions (as ++ bs) = questions as + questions bs := by
  simp [questions]

theorem questions_wants (bl : Bool) (ops : List MicroOp) : questions (wants bl ops) = asksOf ops := by
  induction ops generalizing bl with
  | nil => rfl
  | cons m ms ih =>
    rw [asksOf_cons]
    cases m <;> simp [wants, questions_cons, Want.asks, asks, ih]

theorem wants_append_of_bl (as bs : List MicroOp) (s : State) :
    wants s.bl (as ++ bs) = wants s.bl as ++ wants (regWrites as s).bl bs := by
  induction as generalizing s with
  | nil => rfl
  | cons m ms ih =>
    have h := ih (regWrite m s)
    cases m <;> simp_all [wants, regWrites, regWrite]

/-! ### Answers -/

theorem acks_zero (s : State) : Acks s 0 := fun _ hk => absurd hk (Nat.not_lt_zero _)

theorem Acks.mono {s : State} {m n : Nat} (h : Acks s n) (hmn : m ≤ n) : Acks s m :=
  fun k hk => h k (Nat.lt_of_lt_of_le hk hmn)

/-- The next answer is `ok` and so are the `n` after it. -/
theorem acks_succ_iff (s : State) (n : Nat) : Acks s (n + 1) ↔ s.answerAt 0 = .ok ∧ Acks s.takeAnswer n := by
  constructor
  · intro h
    exact ⟨h 0 (Nat.succ_pos _), fun k hk => by rw [takeAnswer_answerAt]; exact h _ (by omega)⟩
  · rintro ⟨h0, h⟩ k hk
    cases k with
    | zero => exact h0
    | succ k => have := h k (by omega); rwa [takeAnswer_answerAt] at this

theorem failsAt_succ_iff (s : State) (j : Nat) :
    FailsAt s (j + 1) ↔ s.answerAt 0 = .ok ∧ FailsAt s.takeAnswer j := by
  unfold FailsAt
  rw [acks_succ_iff, takeAnswer_answerAt, and_assoc]

theorem failsAt_zero_iff (s : State) : FailsAt s 0 ↔ s.answerAt 0 = .busError :=
  ⟨fun h => h.2, fun h => ⟨acks_zero s, h⟩⟩

/-- Either every one of the next `n` answers is `ok`, or there is a first `BusError` among them. -/
theorem acks_or_failsAt (s : State) (n : Nat) : Acks s n ∨ ∃ j, j < n ∧ FailsAt s j := by
  induction n with
  | zero => exact .inl (acks_zero s)
  | succ n ih =>
    obtain h | ⟨j, hj, h⟩ := ih
    · cases ha : s.answerAt n with
      | ok =>
        refine .inl fun k hk => ?_
        obtain hk | rfl : k < n ∨ k = n := by omega
        · exact h k hk
        · exact ha
      | busError => exact .inr ⟨n, Nat.lt_succ_self n, h, ha⟩
    · exact .inr ⟨j, by omega, h⟩

/-! ### The frame of a run -/

/-- No list of micro-operations touches the configuration, the parameters, the port, the record or `BUSY`. -/
theorem perform_frame (m : MicroOp) (s : State) :
    SameConfig s (perform m s).state ∧ (perform m s).state.port = s.port ∧ (perform m s).state.status = s.status
      ∧ (perform m s).state.value = s.value ∧ (perform m s).state.busy = s.busy := by
  cases m <;> simp only [perform, bindBus, busWrite] <;> (try cases s.answer) <;> simp [Run.state, SameConfig]

theorem runOps_frame (ops : List MicroOp) (s : State) :
    SameConfig s (runOps ops s).state ∧ (runOps ops s).state.port = s.port ∧ (runOps ops s).state.status = s.status
      ∧ (runOps ops s).state.value = s.value ∧ (runOps ops s).state.busy = s.busy := by
  induction ops generalizing s with
  | nil => simp [Run.state, SameConfig]
  | cons m ms ih =>
    have hp := perform_frame m s
    cases h : perform m s with
    | completed t =>
      rw [runOps_cons_completed h]
      have := ih t
      simp only [h, Run.state, SameConfig] at hp this ⊢
      obtain ⟨⟨h1, h2, h3, h4, h5⟩, h6, h7, h8, h9⟩ := hp
      obtain ⟨⟨g1, g2, g3, g4, g5⟩, g6, g7, g8, g9⟩ := this
      exact ⟨⟨g1.trans h1, g2.trans h2, g3.trans h3, g4.trans h4, g5.trans h5⟩, g6.trans h6, g7.trans h7,
        g8.trans h8, g9.trans h9⟩
    | stopped t =>
      rw [runOps_cons_stopped h]
      simpa only [h] using hp

/-! ### The events, the answers, the latch and `UPC` of a run -/

theorem answered_cons (e : Event) (es : List Event) :
    answered (e :: es) = (if Event.isAnswered e then 1 else 0) + answered es := by
  unfold answered
  cases h : Event.isAnswered e <;> simp [h]; omega

theorem answered_append (es fs : List Event) : answered (es ++ fs) = answered es + answered fs := by
  simp [answered]

/-- The events that happen depend only on the answers from `k` on. -/
theorem play_shift (addr : Byte) (ans ans' : Nat → Answer) (k k' : Nat) (h : ∀ n, ans (k + n) = ans' (k' + n))
    (ws : List Want) : play addr ans k ws = play addr ans' k' ws := by
  induction ws generalizing k k' with
  | nil => rfl
  | cons w ws ih =>
    have h0 : ans k = ans' k' := by simpa using h 0
    have h1 : ∀ n, ans (k + 1 + n) = ans' (k' + 1 + n) := fun n => by
      have := h (1 + n); simpa only [Nat.add_assoc] using this
    cases w <;> simp only [play, h0, ih k k' h, ih (k + 1) (k' + 1) h1]

/-- A run: its events are the wanted ones, cut after the first failed; it fails exactly if one is failed; the latch and
the answers follow the events. -/
theorem runOps_events (ops : List MicroOp) (s : State) :
    (runOps ops s).state.trace = s.trace ++ play s.addr s.answerAt 0 (wants s.bl ops)
    ∧ (runOps ops s).state.xlatch = (play s.addr s.answerAt 0 (wants s.bl ops)).foldl XLatch.after s.xlatch
    ∧ ∀ k, (runOps ops s).state.answerAt k
        = s.answerAt (answered (play s.addr s.answerAt 0 (wants s.bl ops)) + k) := by
  induction ops generalizing s with
  | nil => simp [Run.state, wants, play, answered]
  | cons m ms ih =>
    have silent (t : State) (es : List Event) (h : perform m s = .completed t)
        (ha : t.answers = s.answers) (hk : t.asked = s.asked) (haddr : t.addr = s.addr) (hx : t.xlatch = s.xlatch)
        (ht : t.trace = s.trace ++ es) (hes : es.foldl XLatch.after s.xlatch = s.xlatch) (hn : answered es = 0)
        (hw : play s.addr s.answerAt 0 (wants s.bl (m :: ms)) = es ++ play s.addr s.answerAt 0 (wants t.bl ms)) :
        (runOps (m :: ms) s).state.trace = s.trace ++ play s.addr s.answerAt 0 (wants s.bl (m :: ms))
        ∧ (runOps (m :: ms) s).state.xlatch
            = (play s.addr s.answerAt 0 (wants s.bl (m :: ms))).foldl XLatch.after s.xlatch
        ∧ ∀ k, (runOps (m :: ms) s).state.answerAt k
            = s.answerAt (answered (play s.addr s.answerAt 0 (wants s.bl (m :: ms))) + k) := by
      obtain ⟨i1, i2, i3⟩ := ih t
      have he : t.answerAt = s.answerAt := funext (answerAt_congr ha hk)
      rw [runOps_cons_completed h, hw]
      rw [haddr, he] at i1 i2 i3
      refine ⟨by rw [i1, ht, List.append_assoc], by rw [i2, List.foldl_append, hes, hx], fun k => ?_⟩
      rw [i3]
      rw [answered_append, hn, Nat.zero_add]
    have asking (t : State) (v : Event) (x : XLatch) (h : perform m s = .completed t)
        (ha : t.answers = s.answers.tail) (hk : t.asked = s.asked + 1) (haddr : t.addr = s.addr) (hx : t.xlatch = x)
        (ht : t.trace = s.trace ++ [v]) (hv : s.xlatch.after v = x) (hn : answered [v] = 1)
        (hw : play s.addr s.answerAt 0 (wants s.bl (m :: ms))
          = v :: play s.addr s.answerAt 1 (wants t.bl ms)) :
        (runOps (m :: ms) s).state.trace = s.trace ++ play s.addr s.answerAt 0 (wants s.bl (m :: ms))
        ∧ (runOps (m :: ms) s).state.xlatch
            = (play s.addr s.answerAt 0 (wants s.bl (m :: ms))).foldl XLatch.after s.xlatch
        ∧ ∀ k, (runOps (m :: ms) s).state.answerAt k
            = s.answerAt (answered (play s.addr s.answerAt 0 (wants s.bl (m :: ms))) + k) := by
      obtain ⟨i1, i2, i3⟩ := ih t
      have he : ∀ k, t.answerAt k = s.answerAt (k + 1) := fun k =>
        (answerAt_congr (s := s.takeAnswer) ha hk k).trans (takeAnswer_answerAt s k)
      have hp : play t.addr t.answerAt 0 (wants t.bl ms) = play s.addr s.answerAt 1 (wants t.bl ms) := by
        rw [haddr]
        exact play_shift _ _ _ _ _ (fun n => by rw [he]; congr 1; omega) _
      rw [runOps_cons_completed h, hw]
      rw [hp] at i1 i2 i3
      refine ⟨by rw [i1, ht]; simp, by rw [i2, hx, List.foldl_cons, hv], fun k => ?_⟩
      rw [i3, he]
      congr 1
      have : answered (v :: play s.addr s.answerAt 1 (wants t.bl ms))
          = answered [v] + answered (play s.addr s.answerAt 1 (wants t.bl ms)) := answered_append [v] _
      omega
    cases m with
    | bind id =>
      cases ha : s.answer with
      | ok =>
        refine asking (s.takeAnswer.emit (.bind id .ok)).advance (.bind id .ok) s.xlatch ?_ rfl rfl rfl rfl rfl rfl rfl ?_
        · simp [perform, bindBus, ha]
        · simp [wants, play, ← answer_eq_answerAt, ha]
      | busError =>
        have hr : runOps (.bind id :: ms) s = .stopped (s.takeAnswer.emit (.bind id .busError)) :=
          runOps_cons_stopped (by simp [perform, bindBus, ha]) ms
        have hp : play s.addr s.answerAt 0 (wants s.bl (.bind id :: ms)) = [.bind id .busError] := by
          simp [wants, play, ← answer_eq_answerAt, ha]
        rw [hr, hp]
        refine ⟨rfl, rfl, fun k => (takeAnswer_answerAt s k).trans ?_⟩
        rw [Nat.add_comm k 1]; rfl
    | write d =>
      cases ha : s.answer with
      | ok =>
        refine asking ((s.takeAnswer.emit (.wr s.addr (d ||| blbit s.bl) .ok)).setLatch
          (s.xlatch.acked (d ||| blbit s.bl))).advance
          (.wr s.addr (d ||| blbit s.bl) .ok) (s.xlatch.acked (d ||| blbit s.bl)) ?_ rfl rfl rfl rfl rfl rfl rfl ?_
        · simp [perform, busWrite, ha]
        · simp [wants, play, ← answer_eq_answerAt, ha]
      | busError =>
        have hr : runOps (.write d :: ms) s = .stopped ((s.takeAnswer.emit
            (.wr s.addr (d ||| blbit s.bl) .busError)).setLatch (s.xlatch.notAcked (d ||| blbit s.bl))) :=
          runOps_cons_stopped (by simp [perform, busWrite, ha]) ms
        have hp : play s.addr s.answerAt 0 (wants s.bl (.write d :: ms)) = [.wr s.addr (d ||| blbit s.bl) .busError] := by
          simp [wants, play, ← answer_eq_answerAt, ha]
        rw [hr, hp]
        refine ⟨rfl, rfl, fun k => (takeAnswer_answerAt s k).trans ?_⟩
        rw [Nat.add_comm k 1]; rfl
    | delay n => exact silent _ [.dly n] rfl rfl rfl rfl rfl rfl rfl rfl rfl
    | setPhase p => exact silent _ [] rfl rfl rfl rfl rfl (List.append_nil _).symm rfl rfl rfl
    | setBusId v => exact silent _ [] rfl rfl rfl rfl rfl (List.append_nil _).symm rfl rfl rfl
    | setBl b => exact silent _ [] rfl rfl rfl rfl rfl (List.append_nil _).symm rfl rfl rfl
    | setDf v => exact silent _ [] rfl rfl rfl rfl rfl (List.append_nil _).symm rfl rfl rfl
    | setDc v => exact silent _ [] rfl rfl rfl rfl rfl (List.append_nil _).symm rfl rfl rfl
    | setDm v => exact silent _ [] rfl rfl rfl rfl rfl (List.append_nil _).symm rfl rfl rfl

/-- Each completed micro-operation advances `UPC` by one. -/
theorem runOps_upc {ops : List MicroOp} {s t : State} (h : runOps ops s = .completed t) :
    t.upc = s.upc + ops.length := by
  induction ops generalizing s with
  | nil => cases h; rfl
  | cons m ms ih =>
    cases hp : perform m s with
    | stopped u => rw [runOps_cons_stopped hp] at h; cases h
    | completed u =>
      rw [runOps_cons_completed hp] at h
      have hu : u.upc = s.upc + 1 := by
        cases m <;> simp only [perform, bindBus, busWrite] at hp <;> (try cases ha : s.answer) <;> simp_all <;>
          subst hp <;> rfl
      rw [ih h, hu, List.length_cons]; omega

/-! ### The registers of a run -/

/-- The registers that micro-operations write are the same. -/
abbrev SameWritable (s t : State) : Prop :=
  t.df = s.df ∧ t.dc = s.dc ∧ t.dm = s.dm ∧ t.bl = s.bl ∧ t.phase = s.phase ∧ t.busId = s.busId

theorem regWrite_congr {s t : State} (m : MicroOp) (h : SameWritable s t) :
    SameWritable (regWrite m s) (regWrite m t) := by
  obtain ⟨h1, h2, h3, h4, h5, h6⟩ := h
  cases m <;> simp_all [regWrite, SameWritable]

theorem regWrites_congr {s t : State} (ops : List MicroOp) (h : SameWritable s t) :
    SameWritable (regWrites ops s) (regWrites ops t) := by
  induction ops generalizing s t with
  | nil => exact h
  | cons m ms ih => exact ih (regWrite_congr m h)

theorem regWrites_cons (m : MicroOp) (ms : List MicroOp) (s : State) :
    regWrites (m :: ms) s = regWrites ms (regWrite m s) := rfl

theorem regWrites_append (as bs : List MicroOp) (s : State) :
    regWrites (as ++ bs) s = regWrites bs (regWrites as s) := by
  simp [regWrites]

/-- A list of bus writes and waits writes no register. -/
theorem regWrites_busOnly {ops : List MicroOp} (h : busOnly ops = true) (s : State) : regWrites ops s = s := by
  induction ops with
  | nil => rfl
  | cons m ms ih =>
    simp only [busOnly, List.all_cons, Bool.and_eq_true] at h
    rw [regWrites_cons]
    cases m <;> simp_all [regWrite, busOnly, isBus]

theorem busOnly_append (as bs : List MicroOp) : busOnly (as ++ bs) = (busOnly as && busOnly bs) := by
  simp [busOnly]

theorem busOnly_beforeQuestion {ops : List MicroOp} (h : busOnly ops = true) (j : Nat) :
    busOnly (beforeQuestion j ops) = true := by
  induction ops generalizing j with
  | nil => cases j <;> rfl
  | cons m ms ih =>
    simp only [busOnly, List.all_cons, Bool.and_eq_true] at h ih ⊢
    cases j <;> simp only [beforeQuestion] <;> split <;> simp only [List.all_cons, List.all_nil, h.1, ih h.2, Bool.and_self]

/-- The value of a field after a list, folded over that field alone. -/
def lastWrite {α : Type} (f : MicroOp → Option α) (ops : List MicroOp) (a : α) : α :=
  ops.foldl (fun a m => (f m).getD a) a

/-- What a micro-operation writes to each register. -/
def toPhase : MicroOp → Option Phase
  | .setPhase p => some p
  | .setBusId _ | .setBl _ | .setDf _ | .setDc _ | .setDm _ | .bind _ | .write _ | .delay _ => none

def toBusId : MicroOp → Option Byte
  | .setBusId v => some v
  | .setPhase _ | .setBl _ | .setDf _ | .setDc _ | .setDm _ | .bind _ | .write _ | .delay _ => none

def toBl : MicroOp → Option Bool
  | .setBl b => some b
  | .setPhase _ | .setBusId _ | .setDf _ | .setDc _ | .setDm _ | .bind _ | .write _ | .delay _ => none

def toDf : MicroOp → Option Byte
  | .setDf v => some v
  | .setPhase _ | .setBusId _ | .setBl _ | .setDc _ | .setDm _ | .bind _ | .write _ | .delay _ => none

def toDc : MicroOp → Option Byte
  | .setDc v => some v
  | .setPhase _ | .setBusId _ | .setBl _ | .setDf _ | .setDm _ | .bind _ | .write _ | .delay _ => none

def toDm : MicroOp → Option Byte
  | .setDm v => some v
  | .setPhase _ | .setBusId _ | .setBl _ | .setDf _ | .setDc _ | .bind _ | .write _ | .delay _ => none

/-- Each register after the writes of a list, read off the list. -/
theorem regWrites_fields (ops : List MicroOp) (s : State) :
    (regWrites ops s).df = lastWrite toDf ops s.df ∧ (regWrites ops s).dc = lastWrite toDc ops s.dc
    ∧ (regWrites ops s).dm = lastWrite toDm ops s.dm ∧ (regWrites ops s).bl = lastWrite toBl ops s.bl
    ∧ (regWrites ops s).phase = lastWrite toPhase ops s.phase
    ∧ (regWrites ops s).busId = lastWrite toBusId ops s.busId := by
  induction ops generalizing s with
  | nil => exact ⟨rfl, rfl, rfl, rfl, rfl, rfl⟩
  | cons m ms ih =>
    obtain ⟨h1, h2, h3, h4, h5, h6⟩ := ih (regWrite m s)
    rw [regWrites_cons, h1, h2, h3, h4, h5, h6]
    cases m <;> exact ⟨rfl, rfl, rfl, rfl, rfl, rfl⟩

/-- What stands before a question of a list made of two parts. -/
theorem beforeQuestion_append (j : Nat) (as bs : List MicroOp) :
    beforeQuestion j (as ++ bs) =
      if j < asksOf as then beforeQuestion j as else as ++ beforeQuestion (j - asksOf as) bs := by
  induction as generalizing j with
  | nil => rfl
  | cons m ms ih =>
    rw [List.cons_append, asksOf_cons]
    cases j with
    | zero =>
      have := ih 0
      cases hm : asks m <;> simp_all [beforeQuestion]
      split <;> rfl
    | succ j =>
      have h1 := ih j
      have h2 := ih (j + 1)
      cases hm : asks m
      · simp only [beforeQuestion, hm, h2, Bool.false_eq_true, if_false, Nat.zero_add]
        split <;> rfl
      · simp only [beforeQuestion, hm, h1, if_true]
        by_cases hj : j < asksOf ms
        · rw [if_pos hj, if_pos (by omega)]
        · rw [if_neg hj, if_neg (by omega), show j + 1 - (1 + asksOf ms) = j - asksOf ms by omega]; rfl

theorem perform_completed_writable {m : MicroOp} {s t : State} (h : perform m s = .completed t) :
    SameWritable (regWrite m s) t := by
  cases m <;> simp only [perform, bindBus, busWrite] at h <;> (try cases ha : s.answer) <;> simp_all <;>
    subst h <;> simp [regWrite, SameWritable]

theorem perform_stopped_writable {m : MicroOp} {s t : State} (h : perform m s = .stopped t) :
    asks m = true ∧ s.answerAt 0 = .busError ∧ SameWritable s t := by
  rw [← answer_eq_answerAt]
  cases m <;> simp only [perform, bindBus, busWrite] at h <;> (try cases ha : s.answer) <;> simp_all <;>
    subst h <;> simp [SameWritable, asks]

theorem perform_completed_answers {m : MicroOp} {s t : State} (h : perform m s = .completed t) :
    if asks m then s.answerAt 0 = .ok ∧ ∀ k, t.answerAt k = s.answerAt (k + 1)
    else ∀ k, t.answerAt k = s.answerAt k := by
  rw [← answer_eq_answerAt]
  cases m <;> simp only [perform, bindBus, busWrite] at h <;> (try cases ha : s.answer) <;> simp_all <;>
    subst h <;> simp [asks]

/-- All answers `ok`: the run completes, and every register write of the list has been made. -/
theorem runOps_of_acks {ops : List MicroOp} {s : State} (h : Acks s (asksOf ops)) :
    ∃ t, runOps ops s = .completed t ∧ SameWritable (regWrites ops s) t := by
  induction ops generalizing s with
  | nil => exact ⟨s, rfl, by simp [SameWritable, regWrites]⟩
  | cons m ms ih =>
    rw [asksOf_cons] at h
    cases hp : perform m s with
    | stopped u =>
      obtain ⟨hm, ha, -⟩ := perform_stopped_writable hp
      have := h 0 (by simp only [hm, if_true]; omega)
      rw [this] at ha; cases ha
    | completed u =>
      have hk := perform_completed_answers hp
      have hu : Acks u (asksOf ms) := fun k hkl => by
        split at hk
        · rw [hk.2]; exact h _ (by simp_all; omega)
        · rw [hk]; exact h _ (by omega)
      obtain ⟨t, ht, hw⟩ := ih hu
      refine ⟨t, by rw [runOps_cons_completed hp, ht], ?_⟩
      have := regWrites_congr ms (perform_completed_writable hp)
      rw [regWrites_cons]
      exact ⟨hw.1.trans this.1, hw.2.1.trans this.2.1, hw.2.2.1.trans this.2.2.1, hw.2.2.2.1.trans this.2.2.2.1,
        hw.2.2.2.2.1.trans this.2.2.2.2.1, hw.2.2.2.2.2.trans this.2.2.2.2.2⟩

/-- The first `BusError` at question `j`: the run stops there, with exactly the register writes before it made. -/
theorem runOps_of_failsAt {ops : List MicroOp} {s : State} {j : Nat} (hj : j < asksOf ops) (h : FailsAt s j) :
    ∃ t, runOps ops s = .stopped t ∧ SameWritable (regWrites (beforeQuestion j ops) s) t := by
  induction ops generalizing s j with
  | nil => exact absurd hj (Nat.not_lt_zero _)
  | cons m ms ih =>
    rw [asksOf_cons] at hj
    cases hp : perform m s with
    | stopped u =>
      obtain ⟨hm, ha, hw⟩ := perform_stopped_writable hp
      have hj0 : j = 0 := by
        rcases Nat.eq_zero_or_pos j with h0 | h0
        · exact h0
        · have := h.1 0 h0
          rw [this] at ha; cases ha
      subst hj0
      exact ⟨u, runOps_cons_stopped hp ms, by simpa [beforeQuestion, hm, regWrites] using hw⟩
    | completed u =>
      have hk := perform_completed_answers hp
      have hcong := fun js => regWrites_congr js (perform_completed_writable hp)
      have finish (j' : Nat) (hj' : j' < asksOf ms) (hf : FailsAt u j')
          (hb : beforeQuestion j (m :: ms) = m :: beforeQuestion j' ms) :
          ∃ t, runOps (m :: ms) s = .stopped t ∧ SameWritable (regWrites (beforeQuestion j (m :: ms)) s) t := by
        obtain ⟨t, ht, hw⟩ := ih hj' hf
        refine ⟨t, by rw [runOps_cons_completed hp, ht], ?_⟩
        have := hcong (beforeQuestion j' ms)
        rw [hb, regWrites_cons]
        exact ⟨hw.1.trans this.1, hw.2.1.trans this.2.1, hw.2.2.1.trans this.2.2.1, hw.2.2.2.1.trans this.2.2.2.1,
          hw.2.2.2.2.1.trans this.2.2.2.2.1, hw.2.2.2.2.2.trans this.2.2.2.2.2⟩
      cases hm : asks m with
      | true =>
        simp only [hm, if_true] at hk hj
        cases j with
        | zero => have := h.2; rw [hk.1] at this; cases this
        | succ j =>
          refine finish j (by omega) ⟨fun k hkl => by rw [hk.2]; exact h.1 _ (by omega), by rw [hk.2]; exact h.2⟩ ?_
          simp [beforeQuestion, hm]
      | false =>
        simp only [hm, Bool.false_eq_true, if_false] at hk hj
        refine finish j (by omega) ⟨fun k hkl => by rw [hk]; exact h.1 _ hkl, by rw [hk]; exact h.2⟩ ?_
        cases j <;> simp [beforeQuestion, hm]

/-- The registers after a run are those of a prefix of its writes: the whole list, or what stands before a question. -/
theorem runOps_writable (ops : List MicroOp) (s : State) :
    SameWritable (regWrites ops s) (runOps ops s).state
    ∨ ∃ j, j < asksOf ops ∧ FailsAt s j ∧ SameWritable (regWrites (beforeQuestion j ops) s) (runOps ops s).state := by
  obtain h | ⟨j, hj, hf⟩ := acks_or_failsAt s (asksOf ops)
  · obtain ⟨t, ht, hw⟩ := runOps_of_acks h
    exact .inl (by rwa [ht])
  · obtain ⟨t, ht, hw⟩ := runOps_of_failsAt hj hf
    exact .inr ⟨j, hj, hf, by rwa [ht]⟩

/-- A run of bus writes and waits leaves every register alone. -/
theorem runOps_busOnly {ops : List MicroOp} (h : busOnly ops = true) (s : State) :
    SameWritable s (runOps ops s).state := by
  obtain hw | ⟨j, -, -, hw⟩ := runOps_writable ops s
  · rwa [regWrites_busOnly h] at hw
  · rwa [regWrites_busOnly (busOnly_beforeQuestion h j)] at hw

/-- A run that begins with one register write: that write is made, and the bus writes and waits after it change nothing. -/
theorem runOps_write_busOnly {m : MicroOp} {ops : List MicroOp} (hm : asks m = false) (h : busOnly ops = true)
    (s : State) : SameWritable (regWrite m s) (runOps (m :: ops) s).state := by
  obtain hw | ⟨j, -, -, hw⟩ := runOps_writable (m :: ops) s
  · rwa [regWrites_cons, regWrites_busOnly h] at hw
  · have : beforeQuestion j (m :: ops) = m :: beforeQuestion j ops := by cases j <;> simp [beforeQuestion, hm]
    rwa [this, regWrites_cons, regWrites_busOnly (busOnly_beforeQuestion h j)] at hw

/-! ### Wanted events under answers -/

/-- All answers `ok`: every wanted event happens. -/
theorem play_of_acks (addr : Byte) (ans : Nat → Answer) (k : Nat) (ws : List Want)
    (h : ∀ n, n < questions ws → ans (k + n) = .ok) : play addr ans k ws = ws.map (Want.acked addr) := by
  induction ws generalizing k with
  | nil => rfl
  | cons w ws ih =>
    rw [questions_cons] at h
    cases w with
    | dly n =>
      have := ih k (fun n hn => h n (by simp [Want.asks]; omega))
      simp [play, this, Want.acked]
    | wr v =>
      have h0 : ans k = .ok := by simpa using h 0 (by simp [Want.asks])
      have := ih (k + 1) (fun n hn => by
        have := h (1 + n) (by simp [Want.asks]; omega)
        simpa only [Nat.add_assoc] using this)
      simp [play, h0, this, Want.acked]
    | bind id =>
      have h0 : ans k = .ok := by simpa using h 0 (by simp [Want.asks])
      have := ih (k + 1) (fun n hn => by
        have := h (1 + n) (by simp [Want.asks]; omega)
        simpa only [Nat.add_assoc] using this)
      simp [play, h0, this, Want.acked]

theorem play_append (addr : Byte) (ans : Nat → Answer) (k : Nat) (ws vs : List Want) :
    play addr ans k (ws ++ vs) =
      play addr ans k ws ++
        (if (play addr ans k ws).any Event.isFailed then [] else play addr ans (k + questions ws) vs) := by
  induction ws generalizing k with
  | nil => simp [play, questions]
  | cons w ws ih =>
    cases w <;> simp only [List.cons_append, play, questions_cons, Want.asks]
    · cases ans k <;> simp [Event.isFailed, ih, Nat.add_assoc, Nat.add_comm 1]
    · cases ans k <;> simp [Event.isFailed, ih, Nat.add_assoc, Nat.add_comm 1]
    · simp [Event.isFailed, ih]

/-- A failed event is among those that happen exactly if a `BusError` is among the answers. -/
theorem play_any_failed (addr : Byte) (ans : Nat → Answer) (k : Nat) (ws : List Want) :
    (play addr ans k ws).any Event.isFailed = true ↔ ∃ n, n < questions ws ∧ ans (k + n) = .busError := by
  induction ws generalizing k with
  | nil => simp [play, questions]
  | cons w ws ih =>
    have shift : (∃ n, n < 1 + questions ws ∧ ans (k + n) = .busError)
        ↔ ans k = .busError ∨ ∃ n, n < questions ws ∧ ans (k + 1 + n) = .busError := by
      constructor
      · rintro ⟨n, hn, h⟩
        cases n with
        | zero => exact .inl h
        | succ n => exact .inr ⟨n, by omega, by rwa [Nat.add_assoc, Nat.add_comm 1]⟩
      · rintro (h | ⟨n, hn, h⟩)
        · exact ⟨0, by omega, h⟩
        · exact ⟨n + 1, by omega, by rwa [Nat.add_comm n, ← Nat.add_assoc]⟩
    rw [questions_cons]
    cases w with
    | dly n => simpa [play, Want.asks, Event.isFailed] using ih k
    | wr v => cases h : ans k <;> simp [play, Want.asks, h, Event.isFailed, shift, ← ih (k + 1)]
    | bind id => cases h : ans k <;> simp [play, Want.asks, h, Event.isFailed, shift, ← ih (k + 1)]

/-- A failed event is the last that happens. -/
theorem play_failed_last {addr : Byte} {ans : Nat → Answer} {k : Nat} {ws : List Want} {es₁ es₂ : List Event} {e : Event}
    (h : play addr ans k ws = es₁ ++ e :: es₂) (he : Event.isFailed e = true) : es₂ = [] := by
  induction ws generalizing k es₁ with
  | nil => simp [play] at h
  | cons w ws ih =>
    have goesOn (e' : Event) (k' : Nat) (h : e' :: play addr ans k' ws = es₁ ++ e :: es₂)
        (hn : Event.isFailed e' = false) : es₂ = [] := by
      cases es₁ with
      | nil => rw [List.nil_append, List.cons.injEq] at h; rw [h.1, he] at hn; cases hn
      | cons x xs => rw [List.cons_append, List.cons.injEq] at h; exact ih h.2
    have stops (e' : Event) (h : [e'] = es₁ ++ e :: es₂) : es₂ = [] := by
      cases es₁ with
      | nil => rw [List.nil_append, List.cons.injEq] at h; exact h.2.symm
      | cons x xs => simp at h
    cases w <;> simp only [play] at h
    · split at h
      · exact goesOn _ _ h rfl
      · exact stops _ h
    · split at h
      · exact goesOn _ _ h rfl
      · exact stops _ h
    · exact goesOn _ _ h rfl

/-- A run fails exactly if one of its events did. -/
theorem runOps_failed_iff (ops : List MicroOp) (s : State) :
    (runOps ops s).failed = (play s.addr s.answerAt 0 (wants s.bl ops)).any Event.isFailed := by
  rw [Bool.eq_iff_iff, play_any_failed, questions_wants]
  obtain h | ⟨j, hj, hf⟩ := acks_or_failsAt s (asksOf ops)
  · obtain ⟨t, ht, -⟩ := runOps_of_acks h
    rw [ht]
    refine ⟨nofun, ?_⟩
    rintro ⟨n, hn, hb⟩
    rw [Nat.zero_add, h n hn] at hb
    cases hb
  · obtain ⟨t, ht, -⟩ := runOps_of_failsAt hj hf
    rw [ht]
    exact ⟨fun _ => ⟨j, hj, by rw [Nat.zero_add]; exact hf.2⟩, fun _ => rfl⟩

/-! ### Admission -/

/-- Everything admission can answer. -/
theorem admission_next_iff {a : Bool} {s t : State} {body : State → State} :
    admission a s body = .next t ↔
      s.busy = false ∧ Config.rowsSupported s.rows = true ∧ t = if a then body s.accept else s.complete .refused 0 := by
  unfold admission
  cases s.busy <;> cases Config.rowsSupported s.rows <;> simp [eq_comm]

theorem admission_of_idle {s : State} (h : Idle s) (a : Bool) (body : State → State) :
    admission a s body = .next (if a then body s.accept else s.complete .refused 0) :=
  admission_next_iff.mpr ⟨h.1, h.2, rfl⟩

theorem admission_of_busy {s : State} (h : s.busy = true) (a : Bool) (body : State → State) :
    admission a s body = .fault .stuckBusy := by
  simp [admission, h]

theorem admission_of_unsupported {s : State} (hb : s.busy = false) (h : Config.rowsSupported s.rows = false) (a : Bool)
    (body : State → State) : admission a s body = .refused .rowsUnsupported := by
  simp [admission, hb, h]

theorem isReady_iff (s : State) : s.isReady = true ↔ s.phase = .ready := by
  simp [State.isReady]

end Sys2Proof.Laws
end

