-- ==== Sys2Proof/Laws/Exec.lean ====
section
/-! SUPPORT. What each procedure and each operation is, read off its list of micro-operations: how many questions it
asks, its events, its registers; and the one inversion of `exec`. -/

namespace Sys2Proof.Laws

open Sys2Proof.Config (Answer Params)
open Sys2Proof.Machine Sys2Proof.Safety

/-! ### The sequencer's procedures -/

@[simp] theorem asksOf_dispatch (p : Params) (b mode : Byte) : asksOf (dispatch p b mode) = 6 := rfl

@[simp] theorem busOnly_dispatch (p : Params) (b mode : Byte) : busOnly (dispatch p b mode) = true := rfl

/-- A nibble's composed byte leaves the enable bit clear (43_nibble_transport.md R159). -/
theorem composed_clear {p : Params} (hp : p.WellFormed) {x mode : Byte} (hm : mode = 0x00 ∨ mode = p.rsMask)
    (hx : x &&& 0x0F = 0) : (x ||| mode) &&& ~~~p.enMask = x ||| mode := by
  obtain ⟨⟨he, hr, -⟩, ⟨hne, -, -⟩, -⟩ := hp
  have key : ∀ (x e m : Byte), x &&& 0x0F = 0 → (e = 1 ∨ e = 2 ∨ e = 4) → (m = 0 ∨ m = 1 ∨ m = 2 ∨ m = 4) → e ≠ m →
      (x ||| m) &&& ~~~e = x ||| m := by
    intro x e m hx he hm hem
    have hxe : x &&& ~~~e = x := by
      ext i hi
      have hbit : (x.getLsbD i && (0x0F : Byte).getLsbD i) = false := by rw [← BitVec.getLsbD_and, hx]; simp
      rcases he with rfl | rfl | rfl <;> interval_cases i <;> simp_all
    have hme : m &&& ~~~e = m := by
      rcases he with rfl | rfl | rfl <;> rcases hm with rfl | rfl | rfl | rfl <;> first | rfl | exact absurd rfl hem
    rw [BitVec.and_comm, BitVec.and_or_distrib_left, BitVec.and_comm, hxe, BitVec.and_comm, hme]
  refine key x p.enMask mode hx he ?_ ?_
  · rcases hm with rfl | rfl
    · exact .inl rfl
    · exact .inr hr
  · rcases hm with rfl | rfl
    · rcases he with h | h | h <;> rw [h] <;> decide
    · exact hne

theorem highNibble_low (b : Byte) : highNibble b &&& 0x0F = 0 := by
  rw [highNibble, nibMask, BitVec.and_assoc]
  simp

theorem lowNibble_low (b : Byte) : lowNibble b &&& 0x0F = 0 := by
  rw [lowNibble, nibMask, BitVec.and_assoc]
  simp

/-- The events of one nibble (43_nibble_transport.md R152). -/
theorem wants_writeNibble {p : Params} (hp : p.WellFormed) (bl : Bool) {x mode : Byte}
    (hm : mode = 0x00 ∨ mode = p.rsMask) (hx : x &&& 0x0F = 0) :
    wants bl (writeNibble p x mode) = nibbleEvents p (x ||| mode ||| backlightBit bl) := by
  have h : (x ||| mode) &&& ~~~p.enMask = x ||| mode := composed_clear hp hm hx
  have hb : blbit bl = backlightBit bl := rfl
  have hc : x ||| mode ||| p.enMask ||| backlightBit bl = x ||| mode ||| backlightBit bl ||| p.enMask := by
    rw [BitVec.or_assoc, BitVec.or_comm p.enMask, ← BitVec.or_assoc]
  simp only [writeNibble, pulseEnable, expanderWrite, List.cons_append, List.nil_append, wants, nibbleEvents, h, hb,
    tPulse, tSettle, hc]

theorem wants_append_of_busOnly {as : List MicroOp} (h : busOnly as = true) (bl : Bool) (bs : List MicroOp) :
    wants bl (as ++ bs) = wants bl as ++ wants bl bs := by
  induction as with
  | nil => rfl
  | cons m ms ih =>
    simp only [busOnly, List.all_cons, Bool.and_eq_true] at h
    have := ih (by simpa [busOnly] using h.2)
    cases m <;> simp_all [wants, isBus]

/-- The events of one byte (43_nibble_transport.md R153). -/
theorem wants_dispatch {p : Params} (hp : p.WellFormed) (bl : Bool) (b : Byte) {mode : Byte}
    (hm : mode = 0x00 ∨ mode = p.rsMask) : wants bl (dispatch p b mode) = byteEvents p bl mode b := by
  rw [dispatch, wants_append_of_busOnly rfl, wants_writeNibble hp bl hm (highNibble_low b),
    wants_writeNibble hp bl hm (lowNibble_low b)]
  rfl

theorem wants_sendCommand {p : Params} (hp : p.WellFormed) (bl : Bool) (b : Byte) :
    wants bl (sendCommand p b) = commandEvents p bl b :=
  wants_dispatch hp bl b (.inl rfl)

theorem wants_sendData {p : Params} (hp : p.WellFormed) (bl : Bool) (b : Byte) :
    wants bl (sendData p b) = dataEvents p bl b :=
  wants_dispatch hp bl b (.inr rfl)

/-! ### The loop of PRINTS -/

theorem asksOf_flatMap_sendData (p : Params) (text : List Byte) :
    asksOf (text.flatMap (sendData p)) = 6 * text.length := by
  induction text with
  | nil => rfl
  | cons b bs ih =>
    rw [List.flatMap_cons, asksOf_append, ih, sendData, asksOf_dispatch, List.length_cons]; omega

theorem busOnly_flatMap_sendData (p : Params) (text : List Byte) : busOnly (text.flatMap (sendData p)) = true := by
  induction text with
  | nil => rfl
  | cons b bs ih => rw [List.flatMap_cons, busOnly_append, ih]; rfl

theorem wants_flatMap_sendData {p : Params} (hp : p.WellFormed) (bl : Bool) (text : List Byte) :
    wants bl (text.flatMap (sendData p)) = text.flatMap (dataEvents p bl) := by
  induction text with
  | nil => rfl
  | cons b bs ih =>
    rw [List.flatMap_cons, List.flatMap_cons, wants_append_of_busOnly rfl, ih, wants_sendData hp]

/-- The loop runs the bytes' lists one after the other and ends `OK`; its count is the number of bytes completed. -/
theorem printLoop_spec (text : List Byte) (c : Nat) (s : State) :
    ∃ n, printLoop text c s
        = (runOps (text.flatMap (sendData s.par)) s).state.complete .ok (BitVec.ofNat 8 (c + n))
      ∧ (Acks s (6 * text.length) → n = text.length)
      ∧ ∀ j, j < 6 * text.length → FailsAt s j → n = j / 6 := by
  induction text generalizing c s with
  | nil => exact ⟨0, rfl, fun _ => rfl, fun j hj => absurd hj (Nat.not_lt_zero _)⟩
  | cons b bs ih =>
    have hq : asksOf (sendData s.par b) = 6 := rfl
    rw [List.flatMap_cons, runOps_append]
    obtain ha | ⟨j, hj, hf⟩ := acks_or_failsAt s 6
    · obtain ⟨u, hu, -⟩ := runOps_of_acks (hq ▸ ha)
      have hfr := runOps_frame (sendData s.par b) s
      have hev := (runOps_events (sendData s.par b) s).2.2
      rw [hu] at hfr hev
      have hpar : u.par = s.par := hfr.1.2.2.2.2
      have hans : ∀ k, u.answerAt k = s.answerAt (6 + k) := fun k => by
        have h6 : answered (play s.addr s.answerAt 0 (wants s.bl (sendData s.par b))) = 6 := by
          rw [play_of_acks _ _ _ _ (by rw [questions_wants, hq]; intro n hn; rw [Nat.zero_add]; exact ha n hn)]
          rfl
        have := hev k
        rwa [h6] at this
      obtain ⟨n, hn, hacks, hfails⟩ := ih (c + 1) u
      refine ⟨n + 1, ?_, fun h => ?_, fun j hj hf => ?_⟩
      · simp only [printLoop, hu, hn, hpar]
        congr 2; omega
      · rw [hacks fun k hk => by rw [hans]; exact h _ (by simp only [List.length_cons]; omega)]
        simp
      · have hj6 : 6 ≤ j := by
          by_contra hlt
          have := ha j (by omega)
          rw [hf.2] at this; cases this
        have := hfails (j - 6) (by simp only [List.length_cons] at hj; omega)
          ⟨fun k hk => by rw [hans]; exact hf.1 _ (by omega), by rw [hans, show 6 + (j - 6) = j by omega]; exact hf.2⟩
        omega
    · obtain ⟨u, hu, -⟩ := runOps_of_failsAt (hq.symm ▸ hj) hf
      refine ⟨0, ?_, fun h => ?_, fun k hk hfk => ?_⟩
      · simp only [printLoop, hu, Run.state, Nat.add_zero]
      · have := h j (by simp only [List.length_cons]; omega)
        rw [hf.2] at this; cases this
      · have : k = j := by
          rcases Nat.lt_trichotomy k j with h | h | h
          · have := hf.1 k h; rw [hfk.2] at this; cases this
          · exact h
          · have := hfk.1 j h; rw [hf.2] at this; cases this
        omega

/-! ### `exec`, inverted once -/

/-- The micro-operations of an admitted operation. -/
def opsOf (i : Instr) (s : State) : List MicroOp :=
  match i with
  | .init busId => initOps busId s.par s.rows s.charSize
  | .clear => clearOps s
  | .home => homeOps s
  | .setcursor col row => setcursorOps col row s
  | .display => displayOps s
  | .nodisplay => nodisplayOps s
  | .backlight => backlightOps
  | .nobacklight => nobacklightOps
  | .prints text => text.flatMap (sendData s.par)
  | .printn n => (decimalText n).flatMap (sendData s.par)
  | .cmd b => sendCommand s.par b
  | .data b => sendData s.par b

/-- How an operation's run ends: its record. -/
structure Record (i : Instr) (s : State) (r : Run) (st : Status) (v : Byte) : Prop where
  /-- An operation that absorbs a `BusError` ends `OK`. -/
  absorbed : absorbs i = true → st = .ok
  /-- Any other operation that completed ends `OK`. -/
  completed : absorbs i = false → r.failed = false → st = .ok
  /-- Any other operation that failed ends `(BUSERR, 0)`. -/
  failed : absorbs i = false → r.failed = true → st = .busErr ∧ v = 0
  /-- The value of an operation that is neither DATA nor a print. -/
  zero : absorbs i = false → (∀ b, i ≠ .data b) → v = 0
  /-- The value of DATA. -/
  one : ∀ b, i = .data b → st = .ok → v = 1
  /-- The value of PRINTS. -/
  prints : ∀ text, i = .prints text → ∃ n, v = BitVec.ofNat 8 n
    ∧ (Acks s (6 * text.length) → n = text.length) ∧ ∀ j, j < 6 * text.length → FailsAt s j → n = j / 6
  /-- The value of PRINTN. -/
  printn : ∀ m, i = .printn m → ∃ n, v = BitVec.ofNat 8 n
    ∧ (Acks s (6 * (decimalText m).length) → n = (decimalText m).length)
    ∧ ∀ j, j < 6 * (decimalText m).length → FailsAt s j → n = j / 6

theorem propagate_eq (v : Byte) (r : Run) :
    propagate v r = r.state.complete (if r.failed then .busErr else .ok) (if r.failed then 0 else v) := by
  cases r <;> rfl

/-- A propagating operation's record. -/
theorem Record.ofPropagate {i : Instr} {s : State} {r : Run} (v : Byte) (ha : absorbs i = false)
    (h0 : (∀ b, i ≠ .data b) → v = 0) (h1 : ∀ b, i = .data b → v = 1) :
    Record i s r (if r.failed then .busErr else .ok) (if r.failed then 0 else v) where
  absorbed h := by rw [ha] at h; cases h
  completed _ h := by simp [h]
  failed _ h := by simp [h]
  zero _ h := by split <;> simp [h0 h]
  one b hb h := by
    split at h
    · cases h
    · rename_i hf; simp [hf, h1 b hb]
  prints text h := by subst h; cases ha
  printn m h := by subst h; cases ha

/-- What an admitted operation does from the accepting state. -/
def bodyOf (i : Instr) (s : State) : State :=
  match i with
  | .prints text => printLoop text 0 s
  | .printn n => printLoop (decimalText n) 0 s
  | .data b => propagate 1 (runOps (sendData s.par b) s)
  | .init _ | .clear | .home | .setcursor _ _ | .display | .nodisplay | .backlight | .nobacklight | .cmd _ =>
    propagate 0 (runOps (opsOf i s) s)

/-- Every operation is its admission and its body. -/
theorem exec_eq_admission (i : Instr) (s : State) : exec i s = admission (isInit i || s.isReady) s (bodyOf i) := by
  cases i <;> rfl

/-- Every body is the run of the operation's micro-operations and its record. -/
theorem bodyOf_spec (i : Instr) (s : State) :
    ∃ st v, bodyOf i s = (runOps (opsOf i s) s).state.complete st v ∧ Record i s (runOps (opsOf i s) s) st v := by
  have simple (v : Byte) (ha : absorbs i = false) (h0 : (∀ b, i ≠ .data b) → v = 0) (h1 : ∀ b, i = .data b → v = 1)
      (hb : bodyOf i s = propagate v (runOps (opsOf i s) s)) :
      ∃ st v, bodyOf i s = (runOps (opsOf i s) s).state.complete st v ∧ Record i s (runOps (opsOf i s) s) st v :=
    ⟨_, _, by rw [hb]; exact propagate_eq _ _, Record.ofPropagate v ha h0 h1⟩
  cases i with
  | prints text =>
    obtain ⟨n, hn, h1, h2⟩ := printLoop_spec text 0 s
    rw [Nat.zero_add] at hn
    exact ⟨.ok, _, hn, ⟨fun _ => rfl, fun _ _ => rfl, nofun, nofun, nofun,
      fun u hu => by cases hu; exact ⟨n, rfl, h1, h2⟩, nofun⟩⟩
  | printn m =>
    obtain ⟨n, hn, h1, h2⟩ := printLoop_spec (decimalText m) 0 s
    rw [Nat.zero_add] at hn
    exact ⟨.ok, _, hn, ⟨fun _ => rfl, fun _ _ => rfl, nofun, nofun, nofun, nofun,
      fun u hu => by cases hu; exact ⟨n, rfl, h1, h2⟩⟩⟩
  | data b => exact simple 1 rfl (fun h => absurd rfl (h b)) (fun _ _ => rfl) rfl
  | init busId => exact simple 0 rfl (fun _ => rfl) nofun rfl
  | clear => exact simple 0 rfl (fun _ => rfl) nofun rfl
  | home => exact simple 0 rfl (fun _ => rfl) nofun rfl
  | setcursor col row => exact simple 0 rfl (fun _ => rfl) nofun rfl
  | display => exact simple 0 rfl (fun _ => rfl) nofun rfl
  | nodisplay => exact simple 0 rfl (fun _ => rfl) nofun rfl
  | backlight => exact simple 0 rfl (fun _ => rfl) nofun rfl
  | nobacklight => exact simple 0 rfl (fun _ => rfl) nofun rfl
  | cmd b => exact simple 0 rfl (fun _ => rfl) nofun rfl

/-- Everything `exec` can answer with a next state: refusal of an operation that is not admitted, or the run of its
micro-operations from the accepting state and then its record. -/
theorem exec_next_cases {i : Instr} {s t : State} (h : exec i s = .next t) :
    Idle s ∧
      ((isInit i = false ∧ s.phase ≠ .ready ∧ t = s.complete .refused 0)
      ∨ (Admitted i s ∧ ∃ st v, t = (runOps (opsOf i s.accept) s.accept).state.complete st v
          ∧ Record i s.accept (runOps (opsOf i s.accept) s.accept) st v)) := by
  rw [exec_eq_admission] at h
  obtain ⟨h1, h2, rfl⟩ := admission_next_iff.mp h
  refine ⟨⟨h1, h2⟩, ?_⟩
  by_cases ha : isInit i = true ∨ s.phase = .ready
  · have hb : (isInit i || s.isReady) = true := by simpa [isReady_iff] using ha
    obtain ⟨st, v, hv, hrec⟩ := bodyOf_spec i s.accept
    exact .inr ⟨⟨⟨h1, h2⟩, ha⟩, st, v, by rw [if_pos hb, hv], hrec⟩
  · have hb : (isInit i || s.isReady) ≠ true := by simpa [isReady_iff] using ha
    rw [not_or, Bool.not_eq_true] at ha
    exact .inl ⟨ha.1, ha.2, by rw [if_neg hb]⟩

/-- What an admitted operation answers. -/
theorem exec_of_admitted {i : Instr} {s : State} (h : Admitted i s) :
    ∃ st v, exec i s = .next ((runOps (opsOf i s.accept) s.accept).state.complete st v)
      ∧ Record i s.accept (runOps (opsOf i s.accept) s.accept) st v := by
  obtain ⟨st, v, hb, hrec⟩ := bodyOf_spec i s.accept
  refine ⟨st, v, ?_, hrec⟩
  have ha : (isInit i || s.isReady) = true := by
    rcases h.2 with h | h
    · simp [h]
    · simp [(isReady_iff s).mpr h]
  rw [exec_eq_admission, admission_of_idle h.1, ha, if_pos rfl, hb]

/-- What an operation that is not admitted answers (60_exceptions.md R179). -/
theorem exec_of_not_ready {i : Instr} {s : State} (h : Idle s) (hi : isInit i = false) (hp : s.phase ≠ .ready) :
    exec i s = .next (s.complete .refused 0) := by
  have hr : s.isReady = false := by
    cases hs : s.isReady
    · rfl
    · exact absurd ((isReady_iff s).mp hs) hp
  rw [exec_eq_admission, admission_of_idle h, hi, hr]
  rfl

/-- An operation at rest always answers a next state. -/
theorem exec_next_of_idle (i : Instr) {s : State} (h : Idle s) : ∃ t, exec i s = .next t :=
  ⟨_, by rw [exec_eq_admission, admission_of_idle h]⟩

/-! ### The events of each operation -/

theorem decimalDigits_eq (fuel m : Nat) (h : m < 10 ^ (fuel + 1)) :
    decimalDigits fuel m = if m = 0 then [0] else (Nat.digits 10 m).reverse := by
  induction fuel generalizing m with
  | zero =>
    have : m < 10 := by simpa using h
    interval_cases m <;> simp [decimalDigits]
  | succ f ih =>
    unfold decimalDigits
    split
    · interval_cases m <;> simp
    · have hm : m / 10 ≠ 0 := by omega
      rw [ih (m / 10) (by rw [Nat.div_lt_iff_lt_mul (by norm_num), ← pow_succ]; exact h), if_neg hm,
        if_neg (by omega), Nat.digits_def' (by norm_num) (by omega : 0 < m)]
      simp

/-- The model's decimal text is the one over `Nat.digits` (42_text_ops.md R142). -/
theorem decimalText_eq (n : Word) : decimalText n = decimalChars n := by
  have hlt : n.toInt.natAbs < 10 ^ (9 + 1) := by
    have h1 := BitVec.toInt_lt (x := n)
    have h2 := BitVec.le_toInt (x := n)
    norm_num at h1 h2 ⊢
    omega
  rw [decimalText, decimalChars, decimalDigits_eq 9 _ hlt]
  simp only [Int.natAbs_eq_zero]
  rfl

theorem setCursorByte_eq (p : Params) {rows : Word} (h : Config.rowsSupported rows = true) (col row : Byte) :
    setCursorByte p rows col row = cursorByte p rows col row := by
  simp only [Config.rowsSupported, Bool.and_eq_true, decide_eq_true_eq] at h
  have hbase : (rowOff (clampRow rows row)).toNat = rowBase (min row.toNat (rows.toNat - 1)) := by
    have : min row.toNat (rows.toNat - 1) < 4 := by omega
    have hc : (clampRow rows row).val = min row.toNat (rows.toNat - 1) := by simp only [clampRow]; omega
    generalize min row.toNat (rows.toNat - 1) = r at this hc
    generalize clampRow rows row = c at hc
    subst hc
    fin_cases c <;> rfl
  have hlt : (rowOff (clampRow rows row)).toNat + col.toNat < 2 ^ 9 := by
    have := (rowOff (clampRow rows row)).isLt
    have := col.isLt
    omega
  apply BitVec.eq_of_toNat_eq
  simp only [setCursorByte, ddramAddress, cursorByte, cursorAddress, BitVec.truncate_eq_setWidth, BitVec.toNat_setWidth,
    BitVec.toNat_or, BitVec.toNat_add, BitVec.toNat_ofNat, ← hbase]
  rw [Nat.mod_eq_of_lt (a := p.setDdramAddr.toNat) (by have := p.setDdramAddr.isLt; omega),
    Nat.mod_eq_of_lt (a := (rowOff (clampRow rows row)).toNat) (by have := (rowOff (clampRow rows row)).isLt; omega),
    Nat.mod_eq_of_lt (a := col.toNat) (by have := col.isLt; omega), Nat.mod_eq_of_lt hlt]

/-- The events an operation wants are those its rule lists. -/
theorem wants_opsOf {i : Instr} {s : State} (hp : s.par.WellFormed) (hr : Config.rowsSupported s.rows = true) :
    wants s.bl (opsOf i s) = eventsOf i s := by
  have cmd := fun bl b => wants_sendCommand hp bl b
  have silent := fun b => wants_append_of_busOnly (as := sendCommand s.par b) rfl
  cases i with
  | init busId =>
    have nib := fun x (hx : x &&& (0x0F : Byte) = 0) => wants_writeNibble hp true (mode := 0x00) (.inl rfl) hx
    have silentNib := fun x bs => wants_append_of_busOnly (as := writeNibble s.par x modeCommand) rfl true bs
    have silentCmd := fun b bs => wants_append_of_busOnly (as := sendCommand s.par b) rfl true bs
    have n3 : wants true (writeNibble s.par nibIdle modeCommand) = nibbleEvents s.par 0x38 := nib nibIdle rfl
    have n2 : wants true (writeNibble s.par nib4Bit modeCommand) = nibbleEvents s.par 0x28 := nib nib4Bit rfl
    simp only [opsOf, initOps, initBind, initPowerSettle, initBacklightAssert, initForceIdle, initFourBitLatch,
      initFunctionSet, initDisplayOn, initCleared, initEntryMode, initHomed, expanderWrite, initBacklight,
      List.cons_append, List.nil_append, List.append_assoc, wants, silentNib, silentCmd, n3, n2, cmd true]
    rfl
  | clear => simp only [opsOf, clearOps, silent, cmd]; rfl
  | home => simp only [opsOf, homeOps, silent, cmd]; rfl
  | setcursor col row => simp only [opsOf, setcursorOps, cmd, setCursorByte_eq s.par hr]; rfl
  | display => simp only [opsOf, displayOps, List.cons_append, List.nil_append, wants, cmd]; rfl
  | nodisplay => simp only [opsOf, nodisplayOps, List.cons_append, List.nil_append, wants, cmd]; rfl
  | backlight => rfl
  | nobacklight => rfl
  | prints text => exact wants_flatMap_sendData hp s.bl text
  | printn n => rw [opsOf, decimalText_eq]; exact wants_flatMap_sendData hp s.bl _
  | cmd b => exact cmd s.bl b
  | data b => exact wants_sendData hp s.bl b

end Sys2Proof.Laws
end

