-- ==== Sys2Proof/Laws/Observe.lean ====
section
/-! SUPPORT. The observer of a trace, event list by event list: it is a fold, so what an operation adds is read from the
observer before it. -/

namespace Sys2Proof.Laws

open Sys2Proof.Config (Params)
open Sys2Proof.Machine Sys2Proof.Safety

/-- The observer of a longer trace goes on from the observer of the shorter one. -/
theorem observe_append (p : Params) (as bs : List Event) :
    observe p (as ++ bs) = bs.foldl (Observer.after p) (observe p as) := by
  rw [observe, List.foldl_append]; rfl

@[simp] theorem after_dly (p : Params) (o : Observer) (n : Micros) : o.after p (.dly n) = o := rfl

@[simp] theorem after_done (p : Params) (o : Observer) (st : Status) (v : Byte) : o.after p (.done st v) = o := rfl

@[simp] theorem after_bind (p : Params) (o : Observer) (id : Byte) (a : Config.Answer) :
    o.after p (.bind id a) = ⟨o.lines, o.records ++ [.restart]⟩ := rfl

@[simp] theorem after_wr_busError (p : Params) (o : Observer) (a v : Byte) :
    o.after p (.wr a v .busError) = ⟨observeFailed v o.lines, o.records⟩ := rfl

/-- An acknowledged byte without the enable bit leaves the lines known, whatever was known before it. -/
theorem after_wr_clear {p : Params} {v : Byte} (h : enableLine p v = false) (o : Observer) (a : Byte) :
    (o.after p (.wr a v .ok)).lines = .byte v := by
  cases ho : o.lines <;> simp [Observer.after, observeAcked, ho, h]

/-- Acknowledged without the enable bit, after a known byte without it: nothing is latched. -/
theorem after_wr_quiet {p : Params} {u v : Byte} (hu : enableLine p u = false) {o : Observer}
    (ho : o.lines = .byte u) (a : Byte) : o.after p (.wr a v .ok) = ⟨.byte v, o.records⟩ := by
  simp [Observer.after, observeAcked, ho, hu]

/-- The falling edge: the nibble of the byte with the enable bit is latched (20_memory.md R66). -/
theorem after_wr_falling {p : Params} {u v : Byte} (hu : enableLine p u = true) (hv : enableLine p v = false)
    {o : Observer} (ho : o.lines = .byte u) (a : Byte) :
    o.after p (.wr a v .ok) = ⟨.byte v, o.records ++ [.latched (latchedFrom p u)]⟩ := by
  simp [Observer.after, observeAcked, ho, hu, hv]

/-- The events of one acknowledged nibble, after a known byte without the enable bit, latch that nibble and leave the
lines known and the enable bit clear (43_nibble_transport.md R152). -/
theorem observe_nibble {p : Params} {u w : Byte} (hu : enableLine p u = false) (hw : enableLine p w = false)
    (he : enableLine p (w ||| p.enMask) = true) {o : Observer} (ho : o.lines = .byte u) (addr : Byte) :
    ((nibbleEvents p w).map (Want.acked addr)).foldl (Observer.after p) o
      = ⟨.byte w, o.records ++ [.latched (latchedFrom p (w ||| p.enMask))]⟩ := by
  simp only [nibbleEvents, List.map_cons, List.map_nil, Want.acked, List.foldl_cons, List.foldl_nil, after_dly,
    after_wr_quiet hu ho, after_wr_quiet hw (o := ⟨.byte w, o.records⟩) rfl,
    after_wr_falling he hw (o := ⟨.byte (w ||| p.enMask), o.records⟩) rfl]

/-- The bytes delivered by more records are those before them and those delivered from the reading they left. -/
theorem deliver_bytes (d : Delivery) (rs : List LatchRecord) :
    (rs.foldl Delivery.after d).bytes = d.bytes ++ (rs.foldl Delivery.after ⟨d.pairing, []⟩).bytes
      ∧ (rs.foldl Delivery.after d).pairing = (rs.foldl Delivery.after ⟨d.pairing, []⟩).pairing := by
  induction rs generalizing d with
  | nil => simp
  | cons r rs ih =>
    have step : (d.after r).bytes = d.bytes ++ (Delivery.after ⟨d.pairing, []⟩ r).bytes
        ∧ (d.after r).pairing = (Delivery.after ⟨d.pairing, []⟩ r).pairing := by
      rcases d with ⟨pr, bs⟩
      cases r <;> rcases pr with _ | n | _ | h
      all_goals try (rcases n with _ | _ | n)
      all_goals simp only [Delivery.after, Delivery.nibble, Delivery.doubt]
      all_goals try (split)
      all_goals simp
    simp only [List.foldl_cons]
    refine ⟨?_, ?_⟩
    · rw [(ih (d.after r)).1, step.1, step.2, (ih (Delivery.after ⟨d.pairing, []⟩ r)).1, List.append_assoc]
    · rw [(ih (d.after r)).2, step.2, ← (ih (Delivery.after ⟨d.pairing, []⟩ r)).2]

end Sys2Proof.Laws
end

