-- ==== Sys2Proof/Laws/PerInstr.lean ====
section
/-! SUPPORT. What holds of every operation as syntax: the shape of its packet (30_encoding.md R80 to R82, R88). -/

namespace Sys2Proof.Laws.PacketShape

/-- The packet starts with the operation's opcode, one of 0x01 to 0x0C, and a well-formed operation's packet is no
longer than the longest one. -/
def Statement (i : Instr) : Prop :=
  (encode i).head? = some i.opcode ∧ 0x01 ≤ i.opcode.toNat ∧ i.opcode.toNat ≤ 0x0C
  ∧ (i.wf = true → (encode i).length ≤ longestPacket)

theorem init (busId : Byte) : Statement (.init busId) := by simp [Statement, encode, encodeOperands, Instr.opcode, longestPacket]

theorem clear : Statement .clear := by simp [Statement, encode, encodeOperands, Instr.opcode, longestPacket]

theorem home : Statement .home := by simp [Statement, encode, encodeOperands, Instr.opcode, longestPacket]

theorem setcursor (col row : Byte) : Statement (.setcursor col row) := by
  simp [Statement, encode, encodeOperands, Instr.opcode, longestPacket]

theorem display : Statement .display := by simp [Statement, encode, encodeOperands, Instr.opcode, longestPacket]

theorem nodisplay : Statement .nodisplay := by simp [Statement, encode, encodeOperands, Instr.opcode, longestPacket]

theorem backlight : Statement .backlight := by simp [Statement, encode, encodeOperands, Instr.opcode, longestPacket]

theorem nobacklight : Statement .nobacklight := by simp [Statement, encode, encodeOperands, Instr.opcode, longestPacket]

theorem prints (s : List Byte) : Statement (.prints s) := by
  simp [Statement, encode, encodeOperands, Instr.opcode, longestPacket, Instr.wf]; omega

theorem printn (n : Word) : Statement (.printn n) := by
  simp [Statement, encode, encodeOperands, Instr.opcode, longestPacket, wordBytes]

theorem cmd (b : Byte) : Statement (.cmd b) := by simp [Statement, encode, encodeOperands, Instr.opcode, longestPacket]

theorem data (b : Byte) : Statement (.data b) := by simp [Statement, encode, encodeOperands, Instr.opcode, longestPacket]

end Sys2Proof.Laws.PacketShape
end

