-- ==== Sys2Proof/Laws/Step.lean ====
section
/-! SUPPORT. The one inversion of `step`. -/

namespace Sys2Proof.Laws

open Sys2Proof.Machine Sys2Proof.Safety

/-- Everything a step can answer with a next state: no packet and no change, a reserved opcode refused, or the operation
at the port, with its bytes consumed. -/
theorem step_next_cases {s t : State} (h : step s = .next t) :
    s.busy = false ∧
      ((decode s.port = .incomplete ∧ t = s)
      ∨ (∃ op rest, decode s.port = .reserved op rest ∧ Idle s ∧ t = (s.setPort rest).complete .refused 0)
      ∨ ∃ i rest, decode s.port = .packet i rest ∧ exec i (s.setPort rest) = .next t) := by
  unfold step fetch at h
  cases hb : s.busy with
  | true => simp [hb] at h
  | false =>
    refine ⟨rfl, ?_⟩
    cases hd : decode s.port with
    | incomplete => simp [hb, hd] at h; exact .inl ⟨rfl, h.symm⟩
    | reserved op rest =>
      simp only [hb, hd, Bool.false_eq_true, if_false] at h
      obtain ⟨-, h2, h3⟩ := admission_next_iff.mp h
      exact .inr (.inl ⟨op, rest, rfl, ⟨hb, h2⟩, by simpa using h3⟩)
    | packet i rest =>
      simp only [hb, hd, Bool.false_eq_true, if_false] at h
      exact .inr (.inr ⟨i, rest, rfl, h⟩)

end Sys2Proof.Laws
end

