-- ==== Sys2Proof/Laws/Transact.lean ====
section
/-! SUPPORT. How an admitted operation that propagates a `BusError` completes, from its list of micro-operations; and
the frame that every operation has. -/

namespace Sys2Proof.Laws

open Sys2Proof.Machine Sys2Proof.Safety

/-- What any operation leaves alone, and that the engine is at rest after it (10_state.md R25, R34). -/
theorem exec_frame {i : Instr} {s t : State} (h : exec i s = .next t) :
    SameConfig s t ∧ t.port = s.port ∧ t.busy = false := by
  obtain ⟨-, ⟨-, -, rfl⟩ | ⟨-, st, v, rfl, -⟩⟩ := exec_next_cases h
  · exact ⟨by simp [SameConfig], rfl, rfl⟩
  · have hf := runOps_frame (opsOf i s.accept) s.accept
    exact ⟨hf.1, hf.2.1, rfl⟩

/-- The registers an operation's list leaves, at a `BusError` or at its end. -/
abbrev LeftBy (ops : List MicroOp) (s t : State) : Prop :=
  (∃ j, SameWritable (regWrites (beforeQuestion j ops) s) t) ∨ SameWritable (regWrites ops s) t

/-- A list without register writes leaves every register. -/
theorem sameRegisters_of_busOnly {ops : List MicroOp} (hb : busOnly ops = true) {s t : State} (hc : SameConfig s t)
    (hp : t.port = s.port) (h : LeftBy ops s.accept t) : SameRegisters s t := by
  have hw : SameWritable s.accept t := by
    rcases h with ⟨j, h⟩ | h
    · rwa [regWrites_busOnly (busOnly_beforeQuestion hb j)] at h
    · rwa [regWrites_busOnly hb] at h
  obtain ⟨h1, h2, h3, h4, h5, h6⟩ := hw
  exact ⟨hc, h1, h2, h3, h4, h5, h6, hp⟩

/-- An admitted operation that propagates a `BusError` completes as its rule's event list says, once its registers are
known at its end and at every question. -/
theorem transacts_of_wants {i : Instr} {s : State} {ws : List Want} {v : Byte} {same : State → State → Prop}
    (ha : Admitted i s) (hab : absorbs i = false) (hw : wants s.bl (opsOf i s.accept) = ws)
    (hs : ∀ t : State, SameConfig s t → t.port = s.port → LeftBy (opsOf i s.accept) s.accept t → same s t)
    (h1 : ∀ b, i = .data b → v = 1) (h0 : (∀ b, i ≠ .data b) → v = 0) : Transacts i s ws v same := by
  obtain ⟨st, w, he, hrec⟩ := exec_of_admitted ha
  have hq : asksOf (opsOf i s.accept) = questions ws := by rw [← hw, questions_wants]
  have hev := (runOps_events (opsOf i s.accept) s.accept).1
  have hans : s.accept.answerAt = s.answerAt := rfl
  have hfr := exec_frame he
  refine ⟨_, he, hs _ hfr.1 hfr.2.1 ?_, fun h => ?_, fun j hj hf => ?_⟩
  · rcases acks_or_failsAt s.accept (asksOf (opsOf i s.accept)) with h | ⟨j, hj, hf⟩
    · obtain ⟨t, ht, hww⟩ := runOps_of_acks h
      right; rw [ht]; exact hww
    · obtain ⟨t, ht, hww⟩ := runOps_of_failsAt hj hf
      left; refine ⟨j, ?_⟩; rw [ht]; exact hww
  · obtain ⟨t, ht, -⟩ := runOps_of_acks (ops := opsOf i s.accept) (s := s.accept) (by rw [hq]; exact h)
    have hf : (runOps (opsOf i s.accept) s.accept).failed = false := by rw [ht]; rfl
    obtain rfl := hrec.completed hab hf
    have hwv : w = v := by
      by_cases hd : ∃ b, i = .data b
      · obtain ⟨b, hb⟩ := hd; rw [h1 b hb, hrec.one b hb rfl]
      · push Not at hd; rw [h0 hd, hrec.zero hab hd]
    subst hwv
    refine ⟨rfl, rfl, rfl, ?_⟩
    rw [complete_trace, hev, accept_bl, hw, hans, play_of_acks _ _ _ _ fun n hn => by rw [Nat.zero_add]; exact h n hn]
    rfl
  · obtain ⟨t, ht, -⟩ := runOps_of_failsAt (ops := opsOf i s.accept) (s := s.accept) (by rw [hq]; exact hj) hf
    obtain ⟨rfl, rfl⟩ := hrec.failed hab (by rw [ht]; rfl)
    refine ⟨rfl, rfl, rfl, ?_⟩
    rw [complete_trace, hev, accept_bl, hw, hans]
    rfl

end Sys2Proof.Laws
end

