-- ==== Sys2Proof/Tests/Slice0.lean ====
section
/-! SUPPORT. Tests: ill-formed terms refused, packets written out from the spec's encodings, vectors of
95_test_vectors.md, and for every obligation with hypotheses a witness that meets them. -/

namespace Sys2Proof.Tests

open Sys2Proof.Config (Answer Params Straps CharSize)
open Sys2Proof.Machine Sys2Proof.Safety

/-! ### Helpers -/

/-- The start state of the vectors, "`PHASE = Ready`, `DF = 0x08`, `DC = 0x04`, `DM = 0x02`" (95, part 2). -/
def readyState (rows : Word) (bl : Bool) (answers : List Answer) : State :=
  { State.reset with
    rows := rows, df := 0x08, dc := 0x04, dm := 0x02, bl := bl, phase := .ready, busId := 0x01, answers := answers }

/-- `n` answers `ok`. -/
def oks (n : Nat) : List Answer := List.replicate n .ok

/-- `n` answers `ok`, then a `BusError`. -/
def failing (n : Nat) : List Answer := oks n ++ [.busError]

/-- A ready engine with the backlight on whose next `n` writes are acknowledged. -/
def good (n : Nat) : State := readyState 2 true (oks n)

/-- A ready engine with the backlight on whose next write number `j` (from 0) fails. -/
def bad (j : Nat) : State := readyState 2 true (failing j)

/-- An acknowledged write at the default address. -/
def w (v : Byte) : Event := .wr 0x27 v .ok

/-- A failed write at the default address. -/
def x (v : Byte) : Event := .wr 0x27 v .busError

/-- The six writes of one byte with the bus bytes `h`, `l` and their copies `h'`, `l'` with the enable bit. -/
def six (h h' l l' : Byte) : List Event :=
  [w h, w h', .dly 1, w h, .dly 50, w l, w l', .dly 1, w l, .dly 50]

/-- What an outcome leaves. -/
def after (o : Host.Outcome State Fault Refusal) : Option State :=
  match o with
  | .next s => some s
  | .fault _ => none
  | .refused _ => none

/-- The trace an outcome leaves. -/
def traceAfter (o : Host.Outcome State Fault Refusal) : Option (List Event) := (after o).map (·.trace)

/-! ### Ill-formed terms -/

theorem test_wf_refuses_256_bytes : (Instr.prints (List.replicate 256 0x41)).wf = false := by decide +kernel

theorem test_wf_accepts_255_bytes : (Instr.prints (List.replicate 255 0x41)).wf = true := by decide +kernel

theorem test_rows_0_refused : Config.rowsSupported 0 = false := by decide

theorem test_rows_5_refused : Config.rowsSupported 5 = false := by decide

theorem test_rows_1_and_4_supported : Config.rowsSupported 1 = true ∧ Config.rowsSupported 4 = true := by decide

theorem test_params_default_ok : Params.default.WellFormed := by decide

theorem test_params_enable_two_bits : ¬({ Params.default with enMask := 0x06 }).WellFormed := by decide

theorem test_params_select_bit_3 : ¬({ Params.default with rsMask := 0x08 }).WellFormed := by decide

theorem test_params_readwrite_zero : ¬({ Params.default with rwMask := 0x00 }).WellFormed := by decide

theorem test_params_enable_is_select : ¬({ Params.default with enMask := 0x01 }).WellFormed := by decide

theorem test_params_enable_is_readwrite : ¬({ Params.default with enMask := 0x02 }).WellFormed := by decide

theorem test_params_select_is_readwrite : ¬({ Params.default with rsMask := 0x02 }).WellFormed := by decide

theorem test_params_display_on_zero : ¬({ Params.default with displayOn := 0x00 }).WellFormed := by decide

theorem test_params_cursor_overlap : ¬({ Params.default with cursorOff := 0x04 }).WellFormed := by decide

theorem test_params_blink_overlap : ¬({ Params.default with blinkOff := 0x04 }).WellFormed := by decide

theorem test_params_lines2_zero : ¬({ Params.default with lines2 := 0x00 }).WellFormed := by decide

theorem test_params_lines1_overlap : ¬({ Params.default with lines1 := 0x08 }).WellFormed := by decide

theorem test_params_dots5x10_zero : ¬({ Params.default with dots5x10 := 0x00 }).WellFormed := by decide

theorem test_params_dots5x10_overlap : ¬({ Params.default with dots5x10 := 0x08 }).WellFormed := by decide

theorem test_params_dots5x8_overlap : ¬({ Params.default with dots5x8 := 0x04 }).WellFormed := by decide

/-! ### Packets, written out from 30_encoding.md R81, R82 and the packets of 95_test_vectors.md -/

theorem test_decode_init : decode [0x01, 0x07] = .packet (.init 0x07) [] := by decide

theorem test_decode_clear : decode [0x02] = .packet .clear [] := by decide

theorem test_decode_home : decode [0x03] = .packet .home [] := by decide

theorem test_decode_setcursor : decode [0x04, 0x03, 0x01] = .packet (.setcursor 0x03 0x01) [] := by decide

theorem test_decode_display : decode [0x05] = .packet .display [] := by decide

theorem test_decode_nodisplay : decode [0x06] = .packet .nodisplay [] := by decide

theorem test_decode_backlight : decode [0x07] = .packet .backlight [] := by decide

theorem test_decode_nobacklight : decode [0x08] = .packet .nobacklight [] := by decide

theorem test_decode_prints :
    decode [0x09, 0x03, 0x41, 0x42, 0x43, 0x02] = .packet (.prints [0x41, 0x42, 0x43]) [0x02] := by decide

theorem test_decode_prints_empty : decode [0x09, 0x00] = .packet (.prints []) [] := by decide

theorem test_decode_printn_minus_42 :
    decode [0x0A, 0xFF, 0xFF, 0xFF, 0xD6] = .packet (.printn (BitVec.ofInt 32 (-42))) [] := by decide

theorem test_decode_printn_order : decode [0x0A, 0x7F, 0x00, 0x00, 0x01] = .packet (.printn 2130706433) [] := by decide

theorem test_decode_cmd : decode [0x0B, 0x01] = .packet (.cmd 0x01) [] := by decide

theorem test_decode_data : decode [0x0C, 0x41] = .packet (.data 0x41) [] := by decide

theorem test_decode_reserved : decode [0x00] = .reserved 0x00 [] ∧ decode [0x0D] = .reserved 0x0D []
    ∧ decode [0xFF, 0x02] = .reserved 0xFF [0x02] := by decide

theorem test_decode_incomplete : decode [] = .incomplete ∧ decode [0x01] = .incomplete ∧ decode [0x04, 0x03] = .incomplete
    ∧ decode [0x09, 0x02, 0x48] = .incomplete ∧ decode [0x0A, 0xFF, 0xFF, 0xFF] = .incomplete := by decide

theorem test_encode_printn : encode (.printn (BitVec.ofInt 32 (-2147483648))) = [0x0A, 0x80, 0x00, 0x00, 0x00] := by
  decide

theorem test_encode_prints : encode (.prints [0x48, 0x69]) = [0x09, 0x02, 0x48, 0x69] := by decide

theorem test_decodeTableWord : decodeTableWord 24 0x010304 = some (.setcursor 0x03 0x01)
    ∧ decodeTableWord 8 0x09 = some (.prints []) ∧ decodeTableWord 8 0x0D = none := by decide +kernel

theorem test_withFetchWord : (State.reset.withFetchWord 16 0x410C).port = [0x0C, 0x41] := by decide +kernel

/-! ### Vectors of 95_test_vectors.md -/

/-- V1, DATA 0xA5, `BL = 0`. -/
theorem test_data : traceAfter (exec (.data 0xA5) (readyState 2 false (oks 6)))
    = some (six 0xA1 0xA5 0x51 0x55 ++ [.done .ok 1]) := by decide

/-- V6, DATA 0x41, write 2 fails. -/
theorem test_data_fails : traceAfter (exec (.data 0x41) (bad 1)) = some [w 0x49, x 0x4D, .done .busErr 0] := by decide

/-- V1, CMD 0xA5, `BL = 1`. -/
theorem test_cmd : traceAfter (exec (.cmd 0xA5) (good 6)) = some (six 0xA8 0xAC 0x58 0x5C ++ [.done .ok 0]) := by decide

/-- V6, CMD 0x01, write 5 fails. -/
theorem test_cmd_fails : traceAfter (exec (.cmd 0x01) (bad 4))
    = some [w 0x08, w 0x0C, .dly 1, w 0x08, .dly 50, w 0x18, x 0x1C, .done .busErr 0] := by decide

/-- P5, CLEAR. -/
theorem test_clear : traceAfter (exec .clear (good 6))
    = some (six 0x08 0x0C 0x18 0x1C ++ [.dly 2000, .done .ok 0]) := by decide

/-- V6, CLEAR, write 6 fails: no settle wait, no 2000 µs. -/
theorem test_clear_fails : traceAfter (exec .clear (bad 5))
    = some [w 0x08, w 0x0C, .dly 1, w 0x08, .dly 50, w 0x18, w 0x1C, .dly 1, x 0x18, .done .busErr 0] := by decide

/-- P6, HOME. -/
theorem test_home : traceAfter (exec .home (good 6))
    = some (six 0x08 0x0C 0x28 0x2C ++ [.dly 2000, .done .ok 0]) := by decide

/-- V3, `ROWS = 4`, column 255, row 3: address 0x153, bit 8 discarded. -/
theorem test_setcursor_bit_8 : traceAfter (exec (.setcursor 255 3) (readyState 4 true (oks 6)))
    = some (six 0xD8 0xDC 0x38 0x3C ++ [.done .ok 0]) := by decide

/-- V3, `ROWS = 1`, column 5, row 3: the row clamps to 0. -/
theorem test_setcursor_clamp : traceAfter (exec (.setcursor 5 3) (readyState 1 true (oks 6)))
    = some (six 0x88 0x8C 0x58 0x5C ++ [.done .ok 0]) := by decide

/-- V2, DISPLAY from `DC = 0x00`. -/
theorem test_display : (after (exec .display { good 6 with dc := 0x00 })).map (fun s => (s.trace, s.dc))
    = some (six 0x08 0x0C 0xC8 0xCC ++ [.done .ok 0], 0x04) := by decide

/-- V6, NODISPLAY, write 4 fails: `DC` keeps its new value. -/
theorem test_nodisplay_fails : (after (exec .nodisplay (bad 3))).map (fun s => (s.trace, s.dc, s.phase))
    = some ([w 0x08, w 0x0C, .dly 1, w 0x08, .dly 50, x 0x88, .done .busErr 0], 0x00, .ready) := by decide

/-- V2, BACKLIGHT from `BL = 0`. -/
theorem test_backlight : (after (exec .backlight (readyState 2 false (oks 1)))).map (fun s => (s.trace, s.bl))
    = some ([w 0x08, .done .ok 0], true) := by decide

/-- V6, NOBACKLIGHT, its write fails: `BL` keeps its new value; the lines carry the old or the new byte. -/
theorem test_nobacklight_fails : (after (exec .nobacklight (bad 0))).map (fun s => (s.trace, s.bl, s.xlatch))
    = some ([x 0x00, .done .busErr 0], false, .either 0x00 .unknown) := by decide

/-- P1, PRINTS "Hi". -/
theorem test_prints : traceAfter (exec (.prints [0x48, 0x69]) (good 12))
    = some (six 0x49 0x4D 0x89 0x8D ++ six 0x69 0x6D 0x99 0x9D ++ [.done .ok 2]) := by decide

/-- V4, early stop: PRINTS "Hi", write 7 fails. -/
theorem test_prints_stops : traceAfter (exec (.prints [0x48, 0x69]) (bad 6))
    = some (six 0x49 0x4D 0x89 0x8D ++ [x 0x69, .done .ok 1]) := by decide

/-- V4, PRINTN -42. -/
theorem test_printn : traceAfter (exec (.printn (BitVec.ofInt 32 (-42))) (good 18))
    = some (six 0x29 0x2D 0xD9 0xDD ++ six 0x39 0x3D 0x49 0x4D ++ six 0x39 0x3D 0x29 0x2D ++ [.done .ok 3]) := by decide

/-- V4, the text of the least number. -/
theorem test_printn_least : decimalText (BitVec.ofInt 32 (-2147483648))
    = [0x2D, 0x32, 0x31, 0x34, 0x37, 0x34, 0x38, 0x33, 0x36, 0x34, 0x38] := by decide

/-- V5, INIT from reset, the bus write 9 fails. -/
theorem test_init_fails : (after (exec (.init 0x01) { State.reset with answers := failing 9 })).map
      (fun s => (s.trace, s.phase, s.bl, s.df))
    = some ([.bind 0x01 .ok, .dly 50000, w 0x08, .dly 1000000]
        ++ [w 0x38, w 0x3C, .dly 1, w 0x38, .dly 50, .dly 4500] ++ [w 0x38, w 0x3C, .dly 1, w 0x38, .dly 50, .dly 4500]
        ++ [w 0x38, x 0x3C, .done .busErr 0], .forceIdle3, true, 0x00) := by decide

/-- V5 and P6, INIT on one row with the tall font: the flag registers and the end of the trace. -/
theorem test_init_tall_font :
    (after (exec (.init 0x00) { State.reset with rows := 1, charSize := .dots5x10, answers := oks 44 })).map
      (fun s => (s.df, s.dc, s.dm, s.phase, (s.trace.drop 27).take 10))
    = some (0x04, 0x04, 0x02, .ready, six 0x28 0x2C 0x48 0x4C) := by decide +kernel

/-- V7, CLEAR fresh from reset. -/
theorem test_refused : (after (step { State.reset with port := [0x02, 0x03] })).map (fun s => (s.trace, s.port, s.status))
    = some ([.done .refused 0], [0x03], .refused) := by decide

/-- P2, the latch observation of SETCURSOR's and DATA's bytes. -/
theorem test_latch_observation :
    deliveredBytes .high (latchObservation Params.default (six 0xD8 0xDC 0x48 0x4C ++ [w 0x00] ++ six 0x41 0x45 0x11 0x15))
      = [(false, 0xD4), (true, 0x41)] := by decide

/-- 60_exceptions.md R176: "a PRINTS that absorbed an error leaves a `Wr!` but a `Done(OK, k)`". -/
theorem test_fault_free : faultFree [w 0x49, x 0x4D, .done .ok 0] = false ∧ faultFree [w 0x08, .done .ok 0] = true := by
  decide

/-- 10_state.md R33, the ends and the middle of the phase table; R36; R24. -/
theorem test_codes : Phase.unpowered.code = 0 ∧ Phase.forceIdle3.code = 4 ∧ Phase.functionSet.code = 6 ∧ Phase.ready.code = 11
    ∧ Status.busErr.code = 1 ∧ Status.refused.code = 2 ∧ CharSize.dots5x8.code = 0 ∧ CharSize.dots5x10.code = 1 := by decide

/-- 10_state.md R38: after a failed write, the old or the new byte; 20_memory.md R67: the line of a known byte. -/
theorem test_latch_may_be : (XLatch.either 0x00 (.byte 0x08)).mayBe 0x08 = true ∧ (XLatch.either 0x00 (.byte 0x08)).mayBe 0x00 = true
    ∧ (XLatch.either 0x00 (.byte 0x08)).mayBe 0x04 = false ∧ (XLatch.byte 0x49).backlight = some true
    ∧ (XLatch.either 0x00 (.byte 0x08)).backlight = none := by decide

/-- 70_reset_and_hazards.md R200, 93 U3: after the first write since reset any byte, after the second that byte. -/
theorem test_cold_boot : latchOf [w 0x08, .dly 1000000] = .coldBoot ∧ XLatch.coldBoot.mayBe 0x00 = true
    ∧ latchOf [w 0x08, w 0x38] = .byte 0x38 ∧ latchOf [w 0x08, x 0x38] = .either 0x38 .coldBoot := by decide

/-- 20_memory.md R67. -/
theorem test_backlight_observation : backlightObservation [w 0x08, .dly 1000000] = some true
    ∧ backlightObservation [w 0x08, w 0x00, .done .ok 0] = some false ∧ backlightObservation [w 0x08, x 0x00] = none := by
  decide

/-- 20_memory.md R66: a failed falling edge leaves the observation undefined, and resolved it is uncertain. -/
theorem test_failed_edge : latchObservation Params.default [w 0x49, w 0x4D, x 0x49] = [.undefined [⟨true, 4⟩]]
    ∧ latchObservation Params.default [w 0x49, w 0x4D, x 0x49, w 0x08] = [.uncertain [⟨true, 4⟩]] := by decide

/-- P1 and 70_reset_and_hazards.md R203 over a trace: INIT's single nibbles are in no byte; a half byte before a second
INIT is dropped, and the pairs start again after it. -/
theorem test_delivered :
    let one := fun n m => [w n, w m, .dly 1, w n, .dly 50]
    let init := [.bind 0x01 .ok, w 0x08] ++ one 0x38 0x3C ++ one 0x38 0x3C ++ one 0x38 0x3C ++ one 0x28 0x2C
    delivered Params.default (init ++ six 0x28 0x2C 0x88 0x8C) = [(false, 0x28)]
      ∧ delivered Params.default (init ++ six 0x49 0x4D 0x89 0x8D ++ one 0x69 0x6D ++ [x 0x59] ++ init ++ six 0x69 0x6D 0x99 0x9D)
        = [(true, 0x48), (true, 0x69)]
      ∧ pairingOf Params.default (init ++ one 0x69 0x6D ++ [w 0x59, x 0x5D, w 0x08]) = .lost := by decide +kernel

/-! ### Witnesses: a state and operands that meet the hypotheses of each obligation that has any -/

/-- The reset engine whose next answers are these. -/
def fresh (answers : List Answer) : State := { State.reset with answers := answers }

theorem witness_DecodeReadsEncodedPacket : (Instr.prints (List.replicate 255 0x41)).wf = true := by decide +kernel

theorem witness_DecodedPacketIsItsEncoding : decode [0x04, 0x03, 0x01, 0x02] = .packet (.setcursor 0x03 0x01) [0x02] := by
  decide

/-- One packet for each clause, the S format at its least and a greater length. -/
theorem witness_PacketLengthFollowsFormat :
    decode (0x01 :: [0x07]) = .packet (.init 0x07) [] ∧ decode (0x0B :: [0x01]) = .packet (.cmd 0x01) []
    ∧ decode (0x0C :: [0x41, 0x02]) = .packet (.data 0x41) [0x02]
    ∧ decode (0x04 :: [0x03, 0x01]) = .packet (.setcursor 0x03 0x01) [] ∧ decode (0x09 :: [0x00]) = .packet (.prints []) []
    ∧ decode (0x09 :: [0x02, 0x48, 0x69]) = .packet (.prints [0x48, 0x69]) []
    ∧ decode (0x0A :: [0x00, 0x00, 0x00, 0x07]) = .packet (.printn 7) [] ∧ decode (0x02 :: []) = .packet .clear []
    ∧ decode (0x08 :: []) = .packet .nobacklight [] := by decide

/-- Both clauses; the first at no byte and at one byte less than the packet. -/
theorem witness_IncompletePacketDoesNothing :
    ((Instr.data 0x41).wf = true ∧ 0 < (encode (.data 0x41)).length ∧ State.reset.busy = false
      ∧ State.reset.port = (encode (.data 0x41)).take 0)
    ∧ (1 < (encode (.data 0x41)).length ∧ { State.reset with port := [0x0C] }.port = (encode (.data 0x41)).take 1)
    ∧ { State.reset with port := [0x0C, 0x41, 0x02] }.port = encode (.data 0x41) ++ [0x02] := by decide

/-- The reserved opcodes at the ends of their ranges. -/
theorem witness_ReservedOpcodeIsRefused :
    ((0x00 : Byte) = 0x00 ∨ 0x0D ≤ (0x00 : Byte).toNat) ∧ ((0x0D : Byte) = 0x00 ∨ 0x0D ≤ (0x0D : Byte).toNat)
    ∧ ((0xFF : Byte) = 0x00 ∨ 0x0D ≤ (0xFF : Byte).toNat) ∧ Idle { State.reset with port := [0x0D, 0x02] } := by decide

theorem witness_StepRunsDecodedOperation :
    (good 6).busy = false ∧ decode { good 6 with port := [0x0C, 0x41, 0x02] }.port = .packet (.data 0x41) [0x02] := by decide

/-- One state for each clause: busy; admitted INIT; admitted CLEAR; idle and not ready. -/
theorem witness_AdmissionAndRefusal :
    { State.reset with busy := true }.busy = true ∧ Admitted (.init 0x01) State.reset ∧ Admitted .clear (good 6)
    ∧ Idle State.reset ∧ isInit .clear = false ∧ State.reset.phase ≠ .ready := by decide

theorem witness_BusyEngineIsStuck : { good 6 with busy := true }.busy = true := by decide

/-- The values next to the supported range. -/
theorem witness_UnsupportedRowsAreRefused :
    Config.rowsSupported { Straps.default with rows := 0 }.rows = false
    ∧ Config.rowsSupported { Straps.default with rows := 5 }.rows = false
    ∧ (readyState 0 true []).busy = false ∧ Config.rowsSupported (readyState 0 true []).rows = false := by decide

theorem witness_CompletionRecordEncoding :
    (good 0).status = .ok ∧ { good 0 with status := .busErr }.status = .busErr
    ∧ { good 0 with status := .refused }.status = .refused := by decide

/-- A DATA that ends `OK`, one that fails, and an operation of neither kind. -/
theorem witness_ValueOfEveryRecord :
    (∃ t, exec (.data 0x41) (good 6) = .next t ∧ t.status = .ok)
    ∧ (∃ t, exec (.data 0x41) (bad 5) = .next t ∧ t.status ≠ .ok)
    ∧ ∃ t, exec .clear (good 6) = .next t ∧ absorbs .clear = false :=
  ⟨⟨_, rfl, by decide⟩, ⟨_, rfl, by decide⟩, ⟨_, rfl, rfl⟩⟩

/-- An engine that admits every operation, with the next six writes acknowledged; or with the first or the sixth write
failing: the hypotheses of every statement on a six-write operation (CMD, DATA, CLEAR, HOME, SETCURSOR, DISPLAY,
NODISPLAY). -/
theorem witness_six_writes :
    Ready (good 6) ∧ (good 6).par.WellFormed ∧ Acks (good 6) 6
    ∧ (Ready (bad 0) ∧ FailsAt (bad 0) 0) ∧ (Ready (bad 5) ∧ FailsAt (bad 5) 5) := by decide

theorem witness_CmdDispatchesCommandByte :
    Ready (good 6) ∧ (good 6).par.WellFormed ∧ questions (pairEvents (good 6).par 0x00 0x10) = 6 ∧ Acks (good 6) (questions (pairEvents (good 6).par 0x00 0x10))
    ∧ Ready (bad 5) ∧ FailsAt (bad 5) 5 ∧ 5 < questions (pairEvents (bad 5).par 0x00 0x10) := by decide

theorem witness_DataDispatchesDataByte :
    Ready (good 6) ∧ (good 6).par.WellFormed ∧ questions (pairEvents (good 6).par 0x41 0x11) = 6 ∧ Acks (good 6) (questions (pairEvents (good 6).par 0x41 0x11))
    ∧ Ready (bad 0) ∧ FailsAt (bad 0) 0 ∧ 0 < questions (pairEvents (bad 0).par 0x41 0x11) := by decide

theorem witness_AcknowledgedBytesAreDelivered :
    Ready (good 12) ∧ (good 12).par.WellFormed ∧ Acks (good 12) 6 ∧ Acks (good 12) (6 * [0x48, 0x69].length) := by decide

/-- At each end of each clause: `j` 0 and 2, 3 and 5. -/
theorem witness_FailedByteNibbles :
    (Ready (bad 0) ∧ FailsAt (bad 0) 0) ∧ (Ready (bad 2) ∧ FailsAt (bad 2) 2) ∧ (Ready (bad 3) ∧ FailsAt (bad 3) 3)
    ∧ (Ready (bad 5) ∧ FailsAt (bad 5) 5) ∧ (bad 5).par.WellFormed := by decide

/-- A ready engine after the trace of an INIT's single nibbles: the pairs are aligned. -/
def aligned (answers : List Answer) : State :=
  { readyState 2 true answers with
    trace := [.bind 0x01 .ok, w 0x08] ++ [w 0x38, w 0x3C, w 0x38] ++ [w 0x3C, w 0x38] ++ [w 0x3C, w 0x38] ++ [w 0x28, w 0x2C, w 0x28]
      ++ [.done .ok 0]
    xlatch := .byte 0x28 }

theorem aligned_inv (answers : List Answer) : Inv (aligned answers) where
  idle := rfl
  rows := rfl
  params := (by decide : Params.default.WellFormed)
  df _ := (by decide : (0x08 : Byte) = functionSetFlags Params.default 2 .dots5x8)
  dc _ := (by decide : LegalDc Params.default 0x04)
  dm _ := (by decide : (0x02 : Byte) = entryModeFlags Params.default)
  bl := nofun
  accesses := (by decide : ∀ e ∈ (aligned []).trace, Event.busAccessOk Params.default 0x27 e = true)
  ended := .inr rfl
  latch := rfl
  enable v (h : Lines.byte 0x28 = .byte v) := by cases h; exact (by decide : enableLine Params.default 0x28 = false)

theorem witness_AlignedOperationsDeliver :
    Inv (aligned (oks 6)) ∧ Ready (aligned (oks 6)) ∧ isInit (.data 0x41) = false
    ∧ pairingOf (aligned (oks 6)).par (aligned (oks 6)).trace = .high
    ∧ Acks (aligned (oks 6)) (questions (eventsOf (.data 0x41) (aligned (oks 6)))) :=
  ⟨aligned_inv _, by decide, rfl, by decide +kernel, by decide +kernel⟩

theorem witness_BusBytesCarryBacklight :
    (good 6).par.WellFormed ∧ ∃ t, exec (.data 0xFF) (good 6) = .next t := ⟨by decide, _, rfl⟩

theorem witness_EnableBitOnlyInPulses :
    (bad 4).par.WellFormed ∧ (∃ t, exec (.data 0xFF) (bad 4) = .next t) ∧ ∃ t, exec .backlight (good 1) = .next t :=
  ⟨by decide, ⟨_, rfl⟩, ⟨_, rfl⟩⟩

theorem witness_BacklightChangesOnlyBitThree :
    (good 6).par.WellFormed ∧ isInit .clear = false ∧ (∃ t, exec .clear (good 6) = .next t)
    ∧ ∃ u, exec .clear { good 6 with bl := !(good 6).bl } = .next u := ⟨by decide, rfl, ⟨_, rfl⟩, ⟨_, rfl⟩⟩

theorem witness_MicroOperationsAdvanceUpc :
    ∃ t, runOps (sendCommand Params.default 0x01) { good 6 with busy := true } = .completed t := ⟨_, rfl⟩

theorem witness_ClearSendsClearDisplayAndWaits :
    Ready (good 6) ∧ (good 6).par.WellFormed ∧ Acks (good 6) (questions (commandEvents (good 6).par true 0x01 ++ [.dly 2000]))
    ∧ Ready (bad 5) ∧ FailsAt (bad 5) 5 ∧ 5 < questions (commandEvents (bad 5).par true 0x01 ++ [.dly 2000]) := by decide

theorem witness_HomeSendsReturnHomeAndWaits :
    Ready (good 6) ∧ (good 6).par.WellFormed ∧ Acks (good 6) (questions (commandEvents (good 6).par true 0x02 ++ [.dly 2000]))
    ∧ Ready (bad 5) ∧ FailsAt (bad 5) 5 ∧ 5 < questions (commandEvents (bad 5).par true 0x02 ++ [.dly 2000]) := by decide

theorem witness_SetCursorSendsClampedAddress :
    Ready (readyState 4 true (oks 6)) ∧ Acks (readyState 4 true (oks 6)) (questions (commandEvents Params.default true 0xD4))
    ∧ Ready (readyState 1 true (failing 3)) ∧ FailsAt (readyState 1 true (failing 3)) 3 := by decide

/-- The least row that clamps, and the greatest. -/
theorem witness_SetCursorClampsToLastRow :
    (readyState 2 true []).rows.toNat ≤ (0x02 : Byte).toNat ∧ (readyState 4 true []).rows.toNat ≤ (0xFF : Byte).toNat := by
  decide

theorem witness_DisplaySetsDisplayOn :
    Ready (bad 0) ∧ (bad 0).par.WellFormed ∧ FailsAt (bad 0) 0 ∧ 0 < questions (commandEvents (bad 0).par true 0x0C) := by
  decide

theorem witness_NoDisplayClearsDisplayOn :
    Ready (bad 3) ∧ (bad 3).par.WellFormed ∧ FailsAt (bad 3) 3 ∧ 3 < questions (commandEvents (bad 3).par true 0x08) := by
  decide

theorem witness_DisplayRoundTrip :
    ∃ t u v, Ready (good 18) ∧ exec .display (good 18) = .next t ∧ exec .nodisplay t = .next u
      ∧ exec .display u = .next v := ⟨_, _, _, by decide, rfl, rfl, rfl⟩

theorem witness_BacklightSwitchesOn :
    Ready (good 1) ∧ Acks (good 1) (questions [.wr 0x08]) ∧ Ready (bad 0) ∧ 0 < questions [.wr 0x08] ∧ FailsAt (bad 0) 0 := by
  decide

theorem witness_NoBacklightSwitchesOff :
    Ready (good 1) ∧ Acks (good 1) (questions [.wr 0x00]) ∧ Ready (bad 0) ∧ 0 < questions [.wr 0x00] ∧ FailsAt (bad 0) 0 := by
  decide

/-- The empty string, a string acknowledged whole, and its first and last write failing. -/
theorem witness_PrintsCountsCompletedBytes :
    (Ready (good 0) ∧ Acks (good 0) (6 * ([] : List Byte).length))
    ∧ (Ready (good 12) ∧ Acks (good 12) (6 * [0x48, 0x69].length) ∧ [0x48, 0x69].length ≤ 255)
    ∧ (Ready (bad 0) ∧ FailsAt (bad 0) 0) ∧ (Ready (bad 11) ∧ FailsAt (bad 11) 11 ∧ 11 < 6 * [0x48, 0x69].length) := by
  decide

theorem witness_PrintnPrintsDecimalText :
    Ready (good 66) ∧ (good 66).par.WellFormed ∧ Acks (good 66) 66 ∧ Ready (bad 65) ∧ FailsAt (bad 65) 65 := by
  decide +kernel

theorem witness_InitRunsWholeSequence :
    Idle (fresh (oks 44)) ∧ (fresh (oks 44)).par.WellFormed ∧ Acks (fresh (oks 44)) 44 := by decide +kernel

/-- The bind, and the first and last write; and the questions where a register's clause changes. -/
theorem witness_InitFailureStopsAtItsStep :
    Idle (fresh (failing 0)) ∧ (fresh (failing 0)).par.WellFormed ∧ FailsAt (fresh (failing 0)) 0
    ∧ FailsAt (fresh (failing 1)) 1 ∧ FailsAt (fresh (failing 13)) 13 ∧ FailsAt (fresh (failing 14)) 14
    ∧ FailsAt (fresh (failing 19)) 19 ∧ FailsAt (fresh (failing 20)) 20 ∧ FailsAt (fresh (failing 31)) 31
    ∧ FailsAt (fresh (failing 32)) 32 ∧ FailsAt (fresh (failing 43)) 43 := by decide +kernel

theorem witness_InitDefaultTrace :
    Idle (fresh (oks 44)) ∧ (fresh (oks 44)).rows = 2 ∧ (fresh (oks 44)).charSize = .dots5x8
    ∧ (fresh (oks 44)).par = Params.default ∧ Acks (fresh (oks 44)) 44 := by decide +kernel

/-- Also with the two configurable margins at the source's values. -/
theorem witness_InitTotals :
    Idle (fresh (oks 44)) ∧ Acks (fresh (oks 44)) 44 ∧ (fresh (oks 44)).par.tPower = 50000
    ∧ (fresh (oks 44)).par.tBlSettle = 1000000 := by decide +kernel

theorem witness_InitDeliversCommandBytes :
    Idle (good 44) ∧ (good 44).par.WellFormed ∧ Acks (good 44) 44 := by decide +kernel

theorem witness_InitRestartsPairing : Inv (aligned (oks 44)) ∧ Acks (aligned (oks 44)) 44 :=
  ⟨aligned_inv _, by decide +kernel⟩

theorem witness_ExecRefinesEventLists :
    (good 6).par.WellFormed ∧ Admitted (.data 0x41) (good 6) ∧ Admitted (.init 0x01) (fresh (failing 3)) := by decide

/-- With a failed event, absorbed and propagated, and without one. -/
theorem witness_BusErrorEndsOperation :
    (∃ t, exec (.prints [0x48]) (bad 2) = .next t) ∧ (∃ t, exec (.cmd 0x01) (bad 2) = .next t)
    ∧ ∃ t, exec (.cmd 0x01) (good 6) = .next t := ⟨⟨_, rfl⟩, ⟨_, rfl⟩, ⟨_, rfl⟩⟩

theorem witness_OneDonePerOperation : ∃ t, exec .nobacklight (good 1) = .next t := ⟨_, rfl⟩

theorem witness_LatchFollowsWrites : ∃ t, exec .nobacklight (bad 0) = .next t := ⟨_, rfl⟩

theorem witness_AnswersTakenInOrder : ∃ t, exec (.data 0x41) (bad 2) = .next t := ⟨_, rfl⟩

theorem witness_EveryOperationEnds :
    (Instr.prints (List.replicate 255 0x41)).wf = true ∧ Idle (good 1530) := by decide +kernel

theorem witness_FlagFileWriters : (∃ t, exec .clear (good 6) = .next t) ∧ isInit .clear = false := ⟨⟨_, rfl⟩, rfl⟩

theorem witness_ConfigurationIsImmutable :
    (∃ t, step { good 6 with port := [0x02] } = .next t) ∧ ∃ t, State.construct Params.default Straps.default = .next t :=
  ⟨⟨_, rfl⟩, ⟨_, rfl⟩⟩

theorem witness_TransmittingOperationsKeepRegisters :
    (∃ t, exec (.setcursor 0x03 0x01) (bad 4) = .next t) ∧ isInit (.setcursor 0x03 0x01) = false := ⟨⟨_, rfl⟩, rfl⟩

theorem witness_SwitchingOperationsKeepOtherRegisters :
    (∃ t, exec .display (bad 0) = .next t) ∧ (∃ t, exec .nodisplay (good 6) = .next t)
    ∧ (∃ t, exec .backlight (bad 0) = .next t) ∧ ∃ t, exec .nobacklight (good 1) = .next t :=
  ⟨⟨_, rfl⟩, ⟨_, rfl⟩, ⟨_, rfl⟩, ⟨_, rfl⟩⟩

theorem witness_PhaseMovesOnlyInInit :
    (∃ t, step { fresh (failing 2) with port := [0x01, 0x01] } = .next t) ∧ ∃ t, step { good 6 with port := [0x02] } = .next t :=
  ⟨⟨_, rfl⟩, ⟨_, rfl⟩⟩

theorem witness_ConstructionSamplesStraps :
    (∃ t, State.construct Params.default { Straps.default with rows := 1 } = .next t)
    ∧ ∃ t, State.construct Params.default { Straps.default with rows := 4 } = .next t := ⟨⟨_, rfl⟩, ⟨_, rfl⟩⟩

/-- A ready engine that has run a BACKLIGHT meets the invariant, and its next step answers a state. -/
theorem witness_StepKeepsInvariant :
    let s := { good 6 with trace := [w 0x08, .done .ok 0], xlatch := .coldBoot, port := [0x0C, 0x41] }
    Inv s ∧ ∃ t, step s = .next t :=
  ⟨⟨rfl, rfl, by decide, fun _ => rfl, fun _ => .inl rfl, fun _ => rfl, nofun, by decide, .inr rfl, rfl,
    fun v (h : Lines.byte 0x08 = .byte v) => by cases h; decide⟩, _, rfl⟩

end Sys2Proof.Tests
end

section
/-! SUPPORT. The state family (10_state.md): what every step keeps. The registers of every operation, the events of
every operation cut wherever a `BusError` cuts them, and from both the invariant. -/

namespace Sys2Proof.Proofs

open Sys2Proof.Config (Answer Params CharSize)
open Sys2Proof.Machine Sys2Proof.Safety Sys2Proof.Laws

/-! ### Registers: the operations other than INIT -/

/-- The one register write of an operation other than INIT (10_state.md R31; 41_control_ops.md R124 to R127). -/
def switched (i : Instr) (s : State) : State :=
  match i with
  | .display => s.setDc (displayFlagsOn s.par s.dc)
  | .nodisplay => s.setDc (displayFlagsOff s.par s.dc)
  | .backlight => s.setBl true
  | .nobacklight => s.setBl false
  | .init _ | .clear | .home | .setcursor _ _ | .prints _ | .printn _ | .cmd _ | .data _ => s

theorem complete_writable (st : Status) (v : Byte) (s : State) : SameWritable s (s.complete st v) :=
  ⟨rfl, rfl, rfl, rfl, rfl, rfl⟩

theorem sameWritable_trans {s t u : State} (h : SameWritable s t) (g : SameWritable t u) : SameWritable s u := by
  obtain ⟨hdf, hdc, hdm, hbl, hph, hid⟩ := h
  obtain ⟨gdf, gdc, gdm, gbl, gph, gid⟩ := g
  exact ⟨gdf.trans hdf, gdc.trans hdc, gdm.trans hdm, gbl.trans hbl, gph.trans hph, gid.trans hid⟩

/-- Whatever the transport answers, the micro-operations of an operation other than INIT make that one write. -/
theorem runOps_opsOf_writable {i : Instr} (hi : isInit i = false) (s : State) :
    SameWritable (switched i s) (runOps (opsOf i s) s).state := by
  cases i with
  | init busId => cases hi
  | clear => exact runOps_busOnly rfl s
  | home => exact runOps_busOnly rfl s
  | setcursor col row => exact runOps_busOnly rfl s
  | display => exact runOps_write_busOnly rfl rfl s
  | nodisplay => exact runOps_write_busOnly rfl rfl s
  | backlight => exact runOps_write_busOnly rfl rfl s
  | nobacklight => exact runOps_write_busOnly rfl rfl s
  | prints text => exact runOps_busOnly (busOnly_flatMap_sendData s.par text) s
  | printn n => exact runOps_busOnly (busOnly_flatMap_sendData s.par (decimalText n)) s
  | cmd b => exact runOps_busOnly rfl s
  | data b => exact runOps_busOnly rfl s

/-- An operation other than INIT is refused and leaves the registers, or is admitted and makes its one write. -/
theorem exec_writable {i : Instr} {s t : State} (hi : isInit i = false) (h : exec i s = .next t) :
    SameWritable s t ∨ SameWritable (switched i s) t := by
  obtain ⟨-, ⟨-, -, rfl⟩ | ⟨-, st, v, rfl, -⟩⟩ := exec_next_cases h
  · exact .inl (complete_writable _ _ _)
  · have haccept : SameWritable (switched i s) (switched i s.accept) := by
      cases i <;> exact ⟨rfl, rfl, rfl, rfl, rfl, rfl⟩
    exact .inr (sameWritable_trans haccept
      (sameWritable_trans (runOps_opsOf_writable hi s.accept) (complete_writable _ _ _)))

theorem switched_config (i : Instr) (s : State) : SameConfig (switched i s) s := by
  cases i <;> exact ⟨rfl, rfl, rfl, rfl, rfl⟩

/-- The one write is to `DC` or to `BL`. -/
theorem switched_frame (i : Instr) (s : State) :
    (switched i s).df = s.df ∧ (switched i s).dm = s.dm ∧ (switched i s).phase = s.phase
      ∧ (switched i s).busId = s.busId := by
  cases i <;> exact ⟨rfl, rfl, rfl, rfl⟩

theorem switched_dc {i : Instr} (hon : i ≠ .display) (hoff : i ≠ .nodisplay) (s : State) :
    (switched i s).dc = s.dc := by
  cases i with
  | display => exact absurd rfl hon
  | nodisplay => exact absurd rfl hoff
  | _ => rfl

theorem switched_bl {i : Instr} (hon : i ≠ .backlight) (hoff : i ≠ .nobacklight) (s : State) :
    (switched i s).bl = s.bl := by
  cases i with
  | backlight => exact absurd rfl hon
  | nobacklight => exact absurd rfl hoff
  | _ => rfl

/-! ### Registers: INIT, step by step -/

theorem sameConfig_trans {s t u : State} (h : SameConfig s t) (g : SameConfig t u) : SameConfig s u := by
  obtain ⟨ha, hcols, hr, hcs, hp⟩ := h
  obtain ⟨ga, gcols, gr, gcs, gp⟩ := g
  exact ⟨ga.trans ha, gcols.trans hcols, gr.trans hr, gcs.trans hcs, gp.trans hp⟩

/-- A list that makes its register writes first, among them no question, and then only writes the bus and waits: at its
end and wherever a `BusError` stops it, exactly those writes have been made. -/
theorem runOps_setup_then_bus {ops : List MicroOp} (n : Nat) (hset : asksOf (ops.take n) = 0)
    (hbus : busOnly (ops.drop n) = true) (s : State) :
    SameWritable (regWrites (ops.take n) s) (runOps ops s).state := by
  obtain h | ⟨j, -, -, h⟩ := runOps_writable ops s <;>
    rw [← List.take_append_drop n ops] at h
  · rwa [regWrites_append, regWrites_busOnly hbus, List.take_append_drop] at h
  · rwa [beforeQuestion_append, hset, if_neg (Nat.not_lt_zero j), regWrites_append,
      regWrites_busOnly (busOnly_beforeQuestion hbus _), List.take_append_drop] at h

/-- From `P` the list completes in `Q`, or is stopped by a `BusError` in `R`. -/
def Triple (P : State → Prop) (ops : List MicroOp) (Q R : State → Prop) : Prop :=
  ∀ s, P s → match runOps ops s with
    | .completed t => Q t
    | .stopped t => R t

theorem Triple.append {P Q Q' R : State → Prop} {as bs : List MicroOp} (ha : Triple P as Q R)
    (hb : Triple Q bs Q' R) : Triple P (as ++ bs) Q' R := by
  intro s hs
  have hs := ha s hs
  rw [runOps_append]
  cases h : runOps as s with
  | completed t => rw [h] at hs; exact hb t hs
  | stopped t => rw [h] at hs; exact hs

/-- A list after which `Q` holds, stopped or not. -/
theorem Triple.of_state {P Q R : State → Prop} {ops : List MicroOp} (h : ∀ s, P s → Q (runOps ops s).state)
    (hR : ∀ t, Q t → R t) : Triple P ops Q R := by
  intro s hs
  have hs := h s hs
  cases hr : runOps ops s with
  | completed t => rwa [hr] at hs
  | stopped t => rw [hr] at hs; exact hR t hs

theorem Triple.state {P Q R : State → Prop} {ops : List MicroOp} (h : Triple P ops Q R) (hQ : ∀ t, Q t → R t)
    {s : State} (hs : P s) : R (runOps ops s).state := by
  have hs := h s hs
  cases hr : runOps ops s with
  | completed t => rw [hr] at hs; exact hQ t hs
  | stopped t => rwa [hr] at hs

/-- INIT `busId`, accepted at `s`, has come to the step `ph` in `t`: the bus is latched, and the registers of the steps
reached hold what those steps wrote (10_state.md R27 to R30, R33, R35). -/
structure InitAt (s : State) (busId : Byte) (ph : Phase) (t : State) : Prop where
  config : SameConfig s t
  busId  : t.busId = busId
  phase  : t.phase = ph
  df     : pastFunctionSet ph = true → t.df = functionSetFlags s.par s.rows s.charSize
  dc     : pastDisplayOn ph = true → t.dc = displayOnFlags s.par
  dm     : pastEntryMode ph = true → t.dm = entryModeFlags s.par
  bl     : insideInit ph = true → t.bl = true

/-- INIT `busId`, accepted at `s`, stands at one of its steps in `t`. -/
def InitReached (s : State) (busId : Byte) (t : State) : Prop := ∃ ph, InitAt s busId ph t

theorem InitAt.congr {s t u : State} {busId : Byte} {ph : Phase} (h : InitAt s busId ph t) (hc : SameConfig s u)
    (hw : SameWritable t u) : InitAt s busId ph u := by
  obtain ⟨hdf, hdc, hdm, hbl, hph, hid⟩ := hw
  exact ⟨hc, hid.trans h.busId, hph.trans h.phase, fun g => hdf.trans (h.df g), fun g => hdc.trans (h.dc g),
    fun g => hdm.trans (h.dm g), fun g => hbl.trans (h.bl g)⟩

section InitSteps
variable {s : State} {busId : Byte}

/-- One part of INIT that leaves the registers as the writes `ws` do, which lead to the step `ph`. -/
theorem triple_of_writes {P : State → Prop} {ph : Phase} {ops : List MicroOp} (ws : List MicroOp)
    (hP : ∀ t, P t → SameConfig s t) (hrun : ∀ t, SameWritable (regWrites ws t) (runOps ops t).state)
    (hws : ∀ t, P t → InitAt s busId ph (regWrites ws t)) :
    Triple P ops (InitAt s busId ph) (InitReached s busId) :=
  Triple.of_state
    (fun t ht => (hws t ht).congr (sameConfig_trans (hP t ht) (runOps_frame ops t).1) (hrun t))
    fun _ ht => ⟨ph, ht⟩

/-- A step of INIT that writes `PHASE` alone before its bus writes: the registers written so far stay. -/
theorem triple_of_setPhase {ph ph' : Phase} {ops : List MicroOp} (hset : ops.take 1 = [.setPhase ph'])
    (hbus : busOnly (ops.drop 1) = true)
    (hf : pastFunctionSet ph' = true → pastFunctionSet ph = true)
    (hc : pastDisplayOn ph' = true → pastDisplayOn ph = true)
    (hm : pastEntryMode ph' = true → pastEntryMode ph = true)
    (hb : insideInit ph' = true → insideInit ph = true) :
    Triple (InitAt s busId ph) ops (InitAt s busId ph') (InitReached s busId) := by
  refine triple_of_writes [.setPhase ph'] (fun t ht => ht.config) (fun t => ?_) fun t ht =>
    ⟨ht.config, ht.busId, rfl, fun g => ht.df (hf g), fun g => ht.dc (hc g), fun g => ht.dm (hm g),
      fun g => ht.bl (hb g)⟩
  rw [← hset]
  exact runOps_setup_then_bus 1 (by rw [hset]; rfl) hbus t

/-- Step 0 latches the bus (40_init_sequencer.md R101). -/
theorem initBind_triple :
    Triple (SameConfig s) (initBind busId) (InitAt s busId .unpowered) (InitReached s busId) := by
  refine triple_of_writes [.setPhase .unpowered, .setBusId busId] (fun _ ht => ht) (fun t => ?_)
    fun t ht => ⟨ht, rfl, rfl, nofun, nofun, nofun, nofun⟩
  obtain h | ⟨j, hj, -, h⟩ := runOps_writable (initBind busId) t
  · exact h
  · obtain rfl : j = 0 := Nat.lt_one_iff.mp hj
    exact h

/-- Steps 1 and 2: no question is asked before `BL` is set (40_init_sequencer.md R102, R103). -/
theorem initBacklight_triple :
    Triple (InitAt s busId .unpowered) (initPowerSettle s.par ++ initBacklightAssert s.par)
      (InitAt s busId .powerSettle) (InitReached s busId) :=
  triple_of_writes _ (fun _ ht => ht.config) (runOps_setup_then_bus 3 rfl rfl) fun _ ht =>
    ⟨ht.config, ht.busId, rfl, nofun, nofun, nofun, fun _ => rfl⟩

/-- Step 3 (40_init_sequencer.md R104). -/
theorem initForceIdle_triple :
    Triple (InitAt s busId .powerSettle) (initForceIdle s.par) (InitAt s busId .forceIdle3) (InitReached s busId) := by
  have idle1 : Triple (InitAt s busId .powerSettle) _ (InitAt s busId .forceIdle1) _ :=
    triple_of_setPhase (ops := [.setPhase .forceIdle1] ++ writeNibble s.par nibIdle modeCommand ++ [.delay tIdleLong])
      rfl rfl id id id id
  have idle2 : Triple (InitAt s busId .forceIdle1) _ (InitAt s busId .forceIdle2) _ :=
    triple_of_setPhase (ops := [.setPhase .forceIdle2] ++ writeNibble s.par nibIdle modeCommand ++ [.delay tIdleLong])
      rfl rfl id id id id
  exact (idle1.append idle2).append (triple_of_setPhase rfl rfl id id id id)

/-- Step 5 writes `DF` (40_init_sequencer.md R106). -/
theorem initFunctionSet_triple :
    Triple (InitAt s busId .fourBitLatch) (initFunctionSet s.par s.rows s.charSize)
      (InitAt s busId .functionSet) (InitReached s busId) :=
  triple_of_writes _ (fun _ ht => ht.config) (runOps_setup_then_bus 2 rfl rfl) fun _ ht =>
    ⟨ht.config, ht.busId, rfl, fun _ => rfl, nofun, nofun, fun _ => ht.bl rfl⟩

/-- Step 6 writes `DC` (40_init_sequencer.md R107). -/
theorem initDisplayOn_triple :
    Triple (InitAt s busId .functionSet) (initDisplayOn s.par) (InitAt s busId .displayOn) (InitReached s busId) :=
  triple_of_writes _ (fun _ ht => ht.config) (runOps_setup_then_bus 2 rfl rfl) fun _ ht =>
    ⟨ht.config, ht.busId, rfl, fun _ => ht.df rfl, fun _ => rfl, nofun, fun _ => ht.bl rfl⟩

/-- Step 8 writes `DM` (40_init_sequencer.md R109). -/
theorem initEntryMode_triple :
    Triple (InitAt s busId .cleared) (initEntryMode s.par) (InitAt s busId .entryModeSet) (InitReached s busId) :=
  triple_of_writes _ (fun _ ht => ht.config) (runOps_setup_then_bus 2 rfl rfl) fun _ ht =>
    ⟨ht.config, ht.busId, rfl, fun _ => ht.df rfl, fun _ => ht.dc rfl, fun _ => rfl, fun _ => ht.bl rfl⟩

/-- The steps of INIT in their order (40_init_sequencer.md R100). -/
theorem initOps_triple :
    Triple (SameConfig s) (initOps busId s.par s.rows s.charSize) (InitAt s busId .ready) (InitReached s busId) := by
  have latch := (initBind_triple.append initBacklight_triple).append (initForceIdle_triple (s := s) (busId := busId))
    |>.append (triple_of_setPhase (ops := initFourBitLatch s.par) rfl rfl id id id id)
  have cleared := (latch.append initFunctionSet_triple).append initDisplayOn_triple
    |>.append (triple_of_setPhase (ops := initCleared s.par) rfl rfl id id id id)
  have homed := (cleared.append initEntryMode_triple).append
    (triple_of_setPhase (ops := initHomed s.par) rfl rfl id id id id)
  exact homed.append (triple_of_setPhase rfl rfl id id id nofun)

end InitSteps

/-- However an INIT ends, it stands at one of its steps (40_init_sequencer.md R112). -/
theorem exec_init_reached {busId : Byte} {s t : State} (h : exec (.init busId) s = .next t) :
    InitReached s busId t := by
  have hc := (exec_frame h).1
  obtain ⟨-, ⟨hi, -, -⟩ | ⟨-, st, v, rfl, -⟩⟩ := exec_next_cases h
  · cases hi
  · have hr : InitReached s busId (runOps (opsOf (.init busId) s.accept) s.accept).state :=
      initOps_triple.state (fun _ ht => ⟨.ready, ht⟩) (s := s.accept) ⟨rfl, rfl, rfl, rfl, rfl⟩
    obtain ⟨ph, hph⟩ := hr
    exact ⟨ph, hph.congr hc (complete_writable _ _ _)⟩

/-! ### The registers are legal -/

/-- The part of the invariant that speaks of registers (10_state.md R27 to R30). -/
structure RegistersLegal (s : State) : Prop where
  df : pastFunctionSet s.phase = true → s.df = functionSetFlags s.par s.rows s.charSize
  dc : pastDisplayOn s.phase = true → LegalDc s.par s.dc
  dm : pastEntryMode s.phase = true → s.dm = entryModeFlags s.par
  bl : insideInit s.phase = true → s.bl = true

theorem RegistersLegal.congr {s t : State} (h : RegistersLegal s) (hc : SameConfig s t) (hw : SameWritable s t) :
    RegistersLegal t := by
  obtain ⟨-, -, hr, hcs, hp⟩ := hc
  obtain ⟨hdf, hdc, hdm, hbl, hph, -⟩ := hw
  constructor
  · rw [hph, hdf, hp, hr, hcs]; exact h.df
  · rw [hph, hdc, hp]; exact h.dc
  · rw [hph, hdm, hp]; exact h.dm
  · rw [hph, hbl]; exact h.bl

/-- DISPLAY leaves the value that INIT writes (41_control_ops.md R124). -/
theorem displayFlagsOn_of_legal {p : Params} {dc : Byte} (h : LegalDc p dc) :
    displayFlagsOn p dc = displayOnFlags p := by
  obtain rfl | rfl := h <;> ext k hk <;> simp [displayFlagsOn, displayOnFlags] <;>
    cases p.displayOn[k] <;> simp

/-- NODISPLAY leaves that value with the `DISPLAY_ON` bit clear (41_control_ops.md R125). -/
theorem displayFlagsOff_of_legal {p : Params} {dc : Byte} (h : LegalDc p dc) :
    displayFlagsOff p dc = displayOnFlags p &&& ~~~p.displayOn := by
  obtain rfl | rfl := h
  · rfl
  · rw [displayFlagsOff, BitVec.and_assoc, BitVec.and_self]

/-- In a ready engine the one write of an operation other than INIT is a legal one. -/
theorem RegistersLegal.switched {s : State} (h : RegistersLegal s) (hr : s.phase = .ready) (i : Instr) :
    RegistersLegal (switched i s) := by
  have hdc : LegalDc s.par s.dc := h.dc (by rw [hr]; rfl)
  have hbl {P : Prop} (hin : insideInit s.phase = true) : P := by rw [hr] at hin; cases hin
  cases i with
  | display => exact ⟨h.df, fun _ => .inl (displayFlagsOn_of_legal hdc), h.dm, h.bl⟩
  | nodisplay => exact ⟨h.df, fun _ => .inr (displayFlagsOff_of_legal hdc), h.dm, h.bl⟩
  | backlight => exact ⟨h.df, h.dc, h.dm, hbl⟩
  | nobacklight => exact ⟨h.df, h.dc, h.dm, hbl⟩
  | init _ | clear | home | setcursor _ _ | prints _ | printn _ | cmd _ | data _ => exact h

theorem InitAt.registersLegal {s t : State} {busId : Byte} {ph : Phase} (h : InitAt s busId ph t) :
    RegistersLegal t := by
  obtain ⟨-, -, hr, hcs, hp⟩ := h.config
  constructor <;> rw [h.phase]
  · rw [hp, hr, hcs]; exact h.df
  · rw [hp]; exact fun g => .inl (h.dc g)
  · rw [hp]; exact h.dm
  · exact h.bl

/-- Every admitted operation keeps the registers legal, wherever a `BusError` stops it. -/
theorem runOps_registersLegal {i : Instr} {s : State} (hs : RegistersLegal s)
    (hadm : isInit i = true ∨ s.phase = .ready) : RegistersLegal (runOps (opsOf i s) s).state := by
  cases hi : isInit i with
  | true =>
    cases i with
    | init busId =>
      have hr : InitReached s busId (runOps (opsOf (.init busId) s) s).state :=
        initOps_triple.state (fun _ ht => ⟨.ready, ht⟩) ⟨rfl, rfl, rfl, rfl, rfl⟩
      exact hr.elim fun _ ht => ht.registersLegal
    | _ => cases hi
  | false =>
    have hready : s.phase = .ready := hadm.resolve_left (by rw [hi]; exact Bool.false_ne_true)
    exact (hs.switched hready i).congr (sameConfig_trans (switched_config i s) (runOps_frame (opsOf i s) s).1)
      (runOps_opsOf_writable hi s)

/-! ### Bus bytes -/

/-- A bus byte with neither the enable bit nor the read/write bit. -/
def Quiet (p : Params) (v : Byte) : Prop := enableLine p v = false ∧ readLine p v = false

/-- A line is up in an OR exactly if it is up in one of the two bytes. -/
theorem line_or (m u v : Byte) : ((u ||| v) &&& m != 0) = ((u &&& m != 0) || (v &&& m != 0)) := by
  rw [Bool.eq_iff_iff, BitVec.and_comm _ m, BitVec.and_or_distrib_left, BitVec.and_comm m, BitVec.and_comm m]
  simp [BitVec.or_eq_zero_iff, imp_iff_not_or]

theorem enableLine_or (p : Params) (u v : Byte) : enableLine p (u ||| v) = (enableLine p u || enableLine p v) :=
  line_or p.enMask u v

theorem readLine_or (p : Params) (u v : Byte) : readLine p (u ||| v) = (readLine p u || readLine p v) :=
  line_or p.rwMask u v

theorem Quiet.or {p : Params} {u v : Byte} (hu : Quiet p u) (hv : Quiet p v) : Quiet p (u ||| v) := by
  obtain ⟨hue, hur⟩ := hu
  obtain ⟨hve, hvr⟩ := hv
  exact ⟨by rw [enableLine_or, hue, hve]; rfl, by rw [readLine_or, hur, hvr]; rfl⟩

/-- The control lines lie within `0x07` (00_scope.md R9 (a)). -/
theorem quiet_of_low_clear {p : Params} (hp : p.WellFormed) {v : Byte} (hv : v &&& 0x07 = 0) : Quiet p v := by
  obtain ⟨⟨he, -, hw⟩, -⟩ := hp
  have clear {m : Byte} (hm : Config.SingleLine m) : (v &&& m != 0) = false := by
    have hm7 : m = 0x07 &&& m := by obtain rfl | rfl | rfl := hm <;> rfl
    rw [hm7, ← BitVec.and_assoc, hv]
    simp
  exact ⟨clear he, clear hw⟩

/-- Different control lines share no bit. -/
theorem singleLine_disjoint {m n : Byte} (hm : Config.SingleLine m) (hn : Config.SingleLine n) (h : m ≠ n) :
    (m &&& n != 0) = false := by
  obtain rfl | rfl | rfl := hm <;> obtain rfl | rfl | rfl := hn <;> revert h <;> decide

theorem quiet_rsMask {p : Params} (hp : p.WellFormed) : Quiet p p.rsMask := by
  obtain ⟨⟨he, hr, hw⟩, ⟨her, -, hrw⟩, -⟩ := hp
  exact ⟨singleLine_disjoint hr he her.symm, singleLine_disjoint hr hw hrw⟩

/-- Raising the enable bit leaves the read/write bit low. -/
theorem readLine_or_enMask {p : Params} (hp : p.WellFormed) {v : Byte} (hv : Quiet p v) :
    readLine p (v ||| p.enMask) = false := by
  obtain ⟨⟨he, -, hw⟩, ⟨-, hew, -⟩, -⟩ := hp
  have hen : readLine p p.enMask = false := singleLine_disjoint he hw hew
  rw [readLine_or, hv.2, hen]
  rfl

/-! ### Wanted events that keep the invariant wherever they are cut -/

/-- No pulse is open: where the byte on the lines is known, its enable bit is clear (43_nibble_transport.md R157). -/
def NoOpenPulse (p : Params) (o : Observer) : Prop := ∀ v, o.lines = .byte v → enableLine p v = false

theorem noOpenPulse_failed (p : Params) (o : Observer) (a v : Byte) :
    NoOpenPulse p (o.after p (.wr a v .busError)) := by
  intro u hu
  rw [after_wr_busError] at hu
  cases ho : o.lines <;> rw [ho] at hu <;> cases hu

theorem noOpenPulse_clear {p : Params} {v : Byte} (hv : enableLine p v = false) (o : Observer) (a : Byte) :
    NoOpenPulse p (o.after p (.wr a v .ok)) := by
  intro u hu
  rw [after_wr_clear hv] at hu
  cases hu
  exact hv

/-- The events that happen of a list go to the engine's address, with the read/write bit of the bytes wanted. -/
theorem play_busAccessOk {p : Params} {ws : List Want} (h : ∀ v, .wr v ∈ ws → readLine p v = false) (addr : Byte)
    (ans : Nat → Answer) (k : Nat) : ∀ e ∈ play addr ans k ws, Event.busAccessOk p addr e = true := by
  induction ws generalizing k with
  | nil => exact fun e he => nomatch he
  | cons w ws ih =>
    have later := fun k => ih (fun v hv => h v (List.mem_cons_of_mem w hv)) k
    cases w with
    | dly n => exact List.forall_mem_cons.mpr ⟨rfl, later k⟩
    | bind id =>
      simp only [play]
      cases ans k with
      | ok => exact List.forall_mem_cons.mpr ⟨rfl, later (k + 1)⟩
      | busError => exact List.forall_mem_singleton.mpr rfl
    | wr v =>
      have hv (a : Answer) : Event.busAccessOk p addr (.wr addr v a) = true := by
        simp [Event.busAccessOk, h v List.mem_cons_self]
      simp only [play]
      cases ans k with
      | ok => exact List.forall_mem_cons.mpr ⟨hv .ok, later (k + 1)⟩
      | busError => exact List.forall_mem_singleton.mpr (hv .busError)

/-- The wanted bytes have the read/write bit clear, and however the transport answers, the events that happen leave no
pulse open (43_nibble_transport.md R156, R157; 60_exceptions.md R176). -/
structure Disciplined (p : Params) (ws : List Want) : Prop where
  access : ∀ v, .wr v ∈ ws → readLine p v = false
  closed : ∀ addr ans k o, NoOpenPulse p o → NoOpenPulse p ((play addr ans k ws).foldl (Observer.after p) o)

theorem disciplined_nil (p : Params) : Disciplined p [] := ⟨nofun, fun _ _ _ _ ho => ho⟩

theorem Disciplined.append {p : Params} {ws vs : List Want} (hw : Disciplined p ws) (hv : Disciplined p vs) :
    Disciplined p (ws ++ vs) where
  access v h := (List.mem_append.mp h).elim (hw.access v) (hv.access v)
  closed addr ans k o ho := by
    rw [play_append, List.foldl_append]
    split
    · exact hw.closed addr ans k o ho
    · exact hv.closed addr ans _ _ (hw.closed addr ans k o ho)

theorem disciplined_flatten {p : Params} {lists : List (List Want)} (h : ∀ ws ∈ lists, Disciplined p ws) :
    Disciplined p lists.flatten := by
  induction lists with
  | nil => exact disciplined_nil p
  | cons ws lists ih =>
    exact (h ws List.mem_cons_self).append (ih fun vs hvs => h vs (List.mem_cons_of_mem ws hvs))

theorem disciplined_dly (p : Params) (n : Micros) : Disciplined p [.dly n] :=
  ⟨by simp, fun _ _ _ _ ho => ho⟩

theorem disciplined_bind (p : Params) (id : Byte) : Disciplined p [.bind id] where
  access := by simp
  closed addr ans k o ho := by
    simp only [play]
    split <;> exact ho

theorem disciplined_wr {p : Params} {v : Byte} (hv : Quiet p v) : Disciplined p [.wr v] where
  access := by simp [hv.2]
  closed addr ans k o _ := by
    simp only [play]
    split
    · exact noOpenPulse_clear hv.1 o addr
    · exact noOpenPulse_failed p o addr v

/-- The enable bit goes up in the middle of a nibble only: its last write takes it down, and a failed write leaves the
lines unknown. -/
theorem disciplined_nibble {p : Params} (hp : p.WellFormed) {v : Byte} (hv : Quiet p v) :
    Disciplined p (nibbleEvents p v) where
  access := by simp [nibbleEvents, hv.2, readLine_or_enMask hp hv]
  closed addr ans k o _ := by
    simp only [nibbleEvents, play]
    cases ans k with
    | busError => exact noOpenPulse_failed p o addr v
    | ok =>
      cases ans (k + 1) with
      | busError => exact noOpenPulse_failed p _ addr _
      | ok =>
        cases ans (k + 1 + 1) with
        | busError => exact noOpenPulse_failed p _ addr v
        | ok => exact noOpenPulse_clear hv.1 _ addr

theorem quiet_backlightBit {p : Params} (hp : p.WellFormed) (bl : Bool) : Quiet p (backlightBit bl) := by
  cases bl <;> exact quiet_of_low_clear hp rfl

/-- The two nibbles of a byte (43_nibble_transport.md R153). -/
theorem disciplined_byte {p : Params} (hp : p.WellFormed) {mode : Byte} (hm : Quiet p mode) (bl : Bool) (b : Byte) :
    Disciplined p (byteEvents p bl mode b) :=
  have composed {x : Byte} (hx : x &&& 0x0F = 0) : Quiet p (x ||| mode ||| backlightBit bl) := by
    refine ((quiet_of_low_clear hp ?_).or hm).or (quiet_backlightBit hp bl)
    rw [show (0x07 : Byte) = 0x0F &&& 0x07 from rfl, ← BitVec.and_assoc, hx]
    simp
  (disciplined_nibble hp (composed (highNibble_low b))).append (disciplined_nibble hp (composed (lowNibble_low b)))

theorem disciplined_command {p : Params} (hp : p.WellFormed) (bl : Bool) (b : Byte) :
    Disciplined p (commandEvents p bl b) :=
  disciplined_byte hp (quiet_of_low_clear hp rfl) bl b

theorem disciplined_text {p : Params} (hp : p.WellFormed) (bl : Bool) (text : List Byte) :
    Disciplined p (text.flatMap (dataEvents p bl)) := by
  refine disciplined_flatten fun ws hws => ?_
  obtain ⟨b, -, rfl⟩ := List.mem_map.mp hws
  exact disciplined_byte hp (quiet_rsMask hp) bl b

theorem disciplined_init {p : Params} (hp : p.WellFormed) (rows : Word) (charSize : CharSize) (busId : Byte) :
    Disciplined p (initEvents p rows charSize busId) := by
  have quiet : Disciplined p [.wr 0x08] := disciplined_wr (quiet_of_low_clear hp rfl)
  have idle : Disciplined p (nibbleEvents p 0x38) := disciplined_nibble hp (quiet_of_low_clear hp rfl)
  have latch : Disciplined p (nibbleEvents p 0x28) := disciplined_nibble hp (quiet_of_low_clear hp rfl)
  have start : Disciplined p [.bind busId, .dly p.tPower, .wr 0x08, .dly p.tBlSettle] :=
    (disciplined_bind p busId).append ((disciplined_dly p _).append (quiet.append (disciplined_dly p _)))
  refine disciplined_flatten ?_
  simp only [List.forall_mem_cons, disciplined_dly, disciplined_command hp, idle, latch, start, List.not_mem_nil,
    false_imp_iff, implies_true, and_self]

/-- The events of every operation. -/
theorem disciplined_eventsOf {s : State} (hp : s.par.WellFormed) (i : Instr) : Disciplined s.par (eventsOf i s) := by
  cases i with
  | init busId => exact disciplined_init hp s.rows s.charSize busId
  | clear => exact (disciplined_command hp s.bl _).append (disciplined_dly s.par _)
  | home => exact (disciplined_command hp s.bl _).append (disciplined_dly s.par _)
  | setcursor col row => exact disciplined_command hp s.bl _
  | display => exact disciplined_command hp s.bl _
  | nodisplay => exact disciplined_command hp s.bl _
  | backlight => exact disciplined_wr (quiet_of_low_clear hp rfl)
  | nobacklight => exact disciplined_wr (quiet_of_low_clear hp rfl)
  | prints text => exact disciplined_text hp s.bl text
  | printn n => exact disciplined_text hp s.bl (decimalChars n)
  | cmd b => exact disciplined_command hp s.bl b
  | data b => exact disciplined_byte hp (quiet_rsMask hp) s.bl b

/-! ### The invariant -/

/-- What holds of the machine while an operation is in flight: the invariant but for `BUSY` and the last `Done`. -/
structure InFlight (s : State) : Prop where
  rows      : Config.rowsSupported s.rows = true
  params    : s.par.WellFormed
  registers : RegistersLegal s
  accesses  : ∀ e ∈ s.trace, Event.busAccessOk s.par s.addr e = true
  latch     : s.xlatch = latchOf s.trace
  closed    : NoOpenPulse s.par (observe s.par s.trace)

/-- Acceptance changes only `BUSY` and `UPC`, which it does not speak of. -/
theorem InFlight.accept {s : State} (h : InFlight s) : InFlight s.accept :=
  ⟨h.rows, h.params, ⟨h.registers.df, h.registers.dc, h.registers.dm, h.registers.bl⟩, h.accesses,
    h.latch, h.closed⟩

theorem inFlight_of_inv {s : State} (h : Inv s) : InFlight s :=
  ⟨h.rows, h.params, ⟨h.df, h.dc, h.dm, h.bl⟩, h.accesses, h.latch, h.enable⟩

theorem inv_setPort {s : State} (h : Inv s) (bytes : List Byte) : Inv (s.setPort bytes) :=
  ⟨h.idle, h.rows, h.params, h.df, h.dc, h.dm, h.bl, h.accesses, h.ended, h.latch, h.enable⟩

/-- Completion restores the invariant. -/
theorem InFlight.complete {s : State} (h : InFlight s) (st : Status) (v : Byte) : Inv (s.complete st v) where
  idle := rfl
  rows := h.rows
  params := h.params
  df := h.registers.df
  dc := h.registers.dc
  dm := h.registers.dm
  bl := h.registers.bl
  accesses := List.forall_mem_append.mpr ⟨h.accesses, List.forall_mem_singleton.mpr rfl⟩
  ended := .inr List.getLast?_concat
  latch := by
    rw [complete_xlatch, complete_trace, latchOf, List.foldl_append]
    exact h.latch
  enable := by
    rw [complete_par, complete_trace, observe_append]
    exact h.closed

/-- The micro-operations of an operation keep what holds in flight, wherever a `BusError` stops them. -/
theorem InFlight.run {i : Instr} {s : State} (h : InFlight s) (hadm : isInit i = true ∨ s.phase = .ready) :
    InFlight (runOps (opsOf i s) s).state := by
  obtain ⟨⟨haddr, -, hrows, -, hpar⟩, -⟩ := runOps_frame (opsOf i s) s
  obtain ⟨htrace, hlatch, -⟩ := runOps_events (opsOf i s) s
  have hd : Disciplined s.par (wants s.bl (opsOf i s)) := by
    rw [wants_opsOf h.params h.rows]
    exact disciplined_eventsOf h.params i
  constructor
  · rw [hrows]; exact h.rows
  · rw [hpar]; exact h.params
  · exact runOps_registersLegal h.registers hadm
  · rw [hpar, haddr, htrace]
    exact List.forall_mem_append.mpr ⟨h.accesses, play_busAccessOk hd.access s.addr s.answerAt 0⟩
  · rw [hlatch, htrace, latchOf, List.foldl_append, h.latch]
    rfl
  · rw [hpar, htrace, observe_append]
    exact hd.closed s.addr s.answerAt 0 _ h.closed

/-- Every operation that answers a next state keeps the invariant. -/
theorem exec_keeps_inv {i : Instr} {s t : State} (hs : Inv s) (h : exec i s = .next t) : Inv t := by
  obtain ⟨-, ⟨-, -, rfl⟩ | ⟨⟨-, hadm⟩, st, v, rfl, -⟩⟩ := exec_next_cases h
  · exact (inFlight_of_inv hs).complete .refused 0
  · exact ((inFlight_of_inv hs).accept.run hadm).complete st v

/-- Settles O53: a step is nothing, a refusal, or an operation, and each keeps the invariant. -/
theorem stepKeepsInvariant : Obligations.StepKeepsInvariant := by
  intro s t hs h
  obtain ⟨-, ⟨-, rfl⟩ | ⟨op, rest, -, -, rfl⟩ | ⟨i, rest, -, hexec⟩⟩ := step_next_cases h
  · exact hs
  · exact (inFlight_of_inv (inv_setPort hs rest)).complete .refused 0
  · exact exec_keeps_inv (inv_setPort hs rest) hexec

/-- Settles O52: the default straps have two rows, and at reset INIT has reached no step and the trace is empty. -/
theorem resetMeetsInvariant : Obligations.ResetMeetsInvariant :=
  ⟨rfl, rfl, rfl, by decide, nofun, nofun, nofun, nofun, nofun, .inl rfl, rfl, nofun⟩

/-! ### Records and counters -/

/-- Settles O12: the refusal's record, or the record that ends the run. -/
theorem valueOfEveryRecord : Obligations.ValueOfEveryRecord := by
  intro i s t h
  obtain ⟨-, ⟨-, -, rfl⟩ | ⟨-, st, v, rfl, hrec⟩⟩ := exec_next_cases h
  · exact ⟨fun _ => rfl, fun _ _ => nofun, fun _ _ => rfl⟩
  · refine ⟨fun hst => ?_, hrec.one, hrec.zero⟩
    cases ha : absorbs i with
    | true => exact absurd (hrec.absorbed ha) hst
    | false =>
      cases hf : (runOps (opsOf i s.accept) s.accept).failed with
      | true => exact (hrec.failed ha hf).2
      | false => exact absurd (hrec.completed ha hf) hst

/-- Settles O21: a completed run's count (`runOps_upc`), and its frame. -/
theorem microOperationsAdvanceUpc : Obligations.MicroOperationsAdvanceUpc := by
  intro ops s t h
  obtain ⟨-, -, -, -, hbusy⟩ := runOps_frame ops s
  rw [h] at hbusy
  exact ⟨runOps_upc h, hbusy⟩

/-- Settles O43: `Done` leaves the latch, and the events of the run drive it. -/
theorem latchFollowsWrites : Obligations.LatchFollowsWrites := by
  intro i s t h
  obtain ⟨-, ⟨-, -, rfl⟩ | ⟨-, st, v, rfl, -⟩⟩ := exec_next_cases h
  · exact ⟨[.done .refused 0], rfl, rfl⟩
  · obtain ⟨htrace, hlatch, -⟩ := runOps_events (opsOf i s.accept) s.accept
    refine ⟨play s.addr s.accept.answerAt 0 (wants s.bl (opsOf i s.accept)) ++ [.done st v], ?_, ?_⟩
    · rw [complete_trace, htrace, List.append_assoc]
      rfl
    · rw [complete_xlatch, hlatch, List.foldl_append]
      rfl

/-! ### Who writes which register -/

/-- Settles O46: a refusal writes no register, and the one write of an admitted operation is to `DC` or `BL`. -/
theorem flagFileWriters : Obligations.FlagFileWriters := by
  intro i s t h hi
  obtain ⟨hdf, hdc, hdm, hbl, -⟩ | ⟨hdf, hdc, hdm, hbl, -⟩ := exec_writable hi h
  · exact ⟨hdf, hdm, fun _ _ => hdc, fun _ _ => hbl⟩
  · obtain ⟨gdf, gdm, -⟩ := switched_frame i s
    exact ⟨hdf.trans gdf, hdm.trans gdm, fun hon hoff => hdc.trans (switched_dc hon hoff s),
      fun hon hoff => hbl.trans (switched_bl hon hoff s)⟩

/-- An operation other than INIT leaves `PHASE` and `BUSID` (10_state.md R33, R35). -/
theorem exec_keeps_phase {i : Instr} {s t : State} (hi : isInit i = false) (h : exec i s = .next t) :
    t.phase = s.phase ∧ t.busId = s.busId := by
  obtain ⟨-, -, -, -, hph, hid⟩ | ⟨-, -, -, -, hph, hid⟩ := exec_writable hi h
  · exact ⟨hph, hid⟩
  · obtain ⟨-, -, gph, gid⟩ := switched_frame i s
    exact ⟨hph.trans gph, hid.trans gid⟩

/-- Settles O50: INIT latches `BUSID` at its first step, and no other operation writes `PHASE` or `BUSID`. -/
theorem phaseMovesOnlyInInit : Obligations.PhaseMovesOnlyInInit := by
  intro s t h
  obtain ⟨-, ⟨-, rfl⟩ | ⟨op, rest, -, -, rfl⟩ | ⟨i, rest, hd, hexec⟩⟩ := step_next_cases h
  · exact .inl ⟨rfl, rfl⟩
  · exact .inl ⟨rfl, rfl⟩
  · cases hi : isInit i with
    | false =>
      have hkeep := exec_keeps_phase hi hexec
      exact .inl hkeep
    | true =>
      cases i with
      | init busId => exact .inr ⟨busId, rest, hd, (exec_init_reached hexec).elim fun _ ht => ht.busId⟩
      | _ => cases hi

/-- Settles O47: the frame of every operation, and the empty trace of a construction. -/
theorem configurationIsImmutable : Obligations.ConfigurationIsImmutable := by
  refine ⟨fun s t h => ?_, fun p st t h => ?_⟩
  · obtain ⟨-, ⟨-, rfl⟩ | ⟨op, rest, -, -, rfl⟩ | ⟨i, rest, -, hexec⟩⟩ := step_next_cases h
    · exact ⟨rfl, rfl, rfl, rfl⟩
    · exact ⟨rfl, rfl, rfl, rfl⟩
    · obtain ⟨⟨haddr, hcols, hrows, hchar, -⟩, -⟩ := exec_frame hexec
      exact ⟨haddr, hcols, hrows, hchar⟩
  · unfold State.construct at h
    split at h <;> cases h
    rfl

/-! ### States in which nothing runs -/

/-- Settles O9: admission and the command port both look at `BUSY` first. -/
theorem busyEngineIsStuck : Obligations.BusyEngineIsStuck := by
  intro i s h
  refine ⟨?_, by simp [step, fetch, h]⟩
  rw [exec_eq_admission]
  exact admission_of_busy h _ _

/-- Settles O10: construction and admission both ask for `ROWS` in 1..4. -/
theorem unsupportedRowsAreRefused : Obligations.UnsupportedRowsAreRefused := by
  refine ⟨fun p st h => by simp [State.construct, h], fun i s hb h => ?_⟩
  rw [exec_eq_admission]
  exact admission_of_unsupported hb h _ _

end Sys2Proof.Proofs
end

section
/-! SUPPORT. The memory family (20_memory.md): what an operation puts into the event trace (R61, R65), and what the
controller latches of it (R55, R57, R66). -/

namespace Sys2Proof.Proofs

open Sys2Proof.Config (Answer Params CharSize)
open Sys2Proof.Machine Sys2Proof.Safety Sys2Proof.Laws

/-! ### The events of an operation -/

/-- Settles O7: the command port's bytes are read once, and the rest stays there. -/
theorem stepRunsDecodedOperation : Obligations.StepRunsDecodedOperation := by
  intro s i rest hb hd
  have hfetch : fetch s = .operation i (s.setPort rest) := by simp [fetch, hb, hd]
  rw [step, hfetch]
  rfl

/-- Whatever an operation answers, it plays some wanted events, none if it is refused, and adds its `Done`; one answer
is taken for each question among them. -/
theorem exec_plays {i : Instr} {s t : State} (h : exec i s = .next t) :
    ∃ ws, t.trace = s.trace ++ play s.addr s.answerAt 0 ws ++ [.done t.status t.value]
      ∧ ∀ k, t.answerAt k = s.answerAt (answered (play s.addr s.answerAt 0 ws) + k) := by
  obtain ⟨-, ⟨-, -, rfl⟩ | ⟨-, st, v, rfl, -⟩⟩ := exec_next_cases h
  · exact ⟨[], by rw [play, List.append_nil]; rfl, fun k => by simp [play, answered]⟩
  · obtain ⟨htrace, -, hans⟩ := runOps_events (opsOf i s.accept) s.accept
    refine ⟨wants s.bl (opsOf i s.accept), ?_, fun k => (complete_answerAt _ _ _ k).trans (hans k)⟩
    rw [complete_trace, htrace]
    rfl

theorem play_no_done (addr : Byte) (ans : Nat → Answer) (k : Nat) (ws : List Want) :
    (play addr ans k ws).any Event.isDone = false := by
  induction ws generalizing k with
  | nil => rfl
  | cons w ws ih =>
    cases w with
    | dly n => exact ih k
    | bind id =>
      simp only [play]
      cases ans k with
      | ok => exact ih (k + 1)
      | busError => rfl
    | wr v =>
      simp only [play]
      cases ans k with
      | ok => exact ih (k + 1)
      | busError => rfl

/-- Settles O42: no wanted event is a `Done`. -/
theorem oneDonePerOperation : Obligations.OneDonePerOperation := by
  intro i s t h
  obtain ⟨ws, htrace, -⟩ := exec_plays h
  exact ⟨_, htrace, play_no_done s.addr s.answerAt 0 ws⟩

/-- Settles O44: the `Done` asks nothing. -/
theorem answersTakenInOrder : Obligations.AnswersTakenInOrder := by
  intro i s t h
  obtain ⟨ws, htrace, hans⟩ := exec_plays h
  refine ⟨_, htrace.trans (List.append_assoc _ _ _), fun k => ?_⟩
  rw [hans, answered_append]
  rfl

/-- Acceptance changes nothing that an event list is computed from. -/
theorem eventsOf_accept (i : Instr) (s : State) : eventsOf i s.accept = eventsOf i s := by
  cases i <;> rfl

/-- Settles O40: the micro-operations of an admitted operation want the events that its rule lists. -/
theorem execRefinesEventLists : Obligations.ExecRefinesEventLists := by
  intro i s hp ha
  obtain ⟨st, v, hexec, -⟩ := exec_of_admitted ha
  have htrace := (runOps_events (opsOf i s.accept) s.accept).1
  rw [wants_opsOf (s := s.accept) hp ha.1.2, eventsOf_accept] at htrace
  exact ⟨_, hexec, by rw [complete_trace, htrace]; rfl⟩

/-- The run of an acknowledged operation, as the observer of the trace sees it: its `Done` shows nothing. -/
theorem exec_observed {i : Instr} {s : State} (hp : s.par.WellFormed) (ha : Admitted i s)
    (hacks : Acks s (questions (eventsOf i s))) :
    ∃ t, exec i s = .next t ∧ observe s.par t.trace
      = ((eventsOf i s).map (Want.acked s.addr)).foldl (Observer.after s.par) (observe s.par s.trace) := by
  obtain ⟨t, hexec, htrace⟩ := execRefinesEventLists i s hp ha
  refine ⟨t, hexec, ?_⟩
  rw [play_of_acks _ _ _ _ fun n hn => by rw [Nat.zero_add]; exact hacks n hn] at htrace
  rw [htrace, observe_append, observe_append]
  rfl

/-! ### What a bus byte shows -/

theorem nibbleLines_or (u v : Byte) : nibbleLines (u ||| v) = nibbleLines u ||| nibbleLines v :=
  BitVec.extractLsb'_or

theorem selectLine_or (p : Params) (u v : Byte) : selectLine p (u ||| v) = (selectLine p u || selectLine p v) :=
  line_or p.rsMask u v

theorem nibbleLines_highNibble (b : Byte) : nibbleLines (highNibble b) = b.extractLsb' 4 4 := by
  apply BitVec.eq_of_getLsbD_eq
  intro k hk
  interval_cases k <;> simp [nibbleLines, highNibble, nibMask]

theorem nibbleLines_lowNibble (b : Byte) : nibbleLines (lowNibble b) = b.extractLsb' 0 4 := by
  apply BitVec.eq_of_getLsbD_eq
  intro k hk
  interval_cases k <;> simp [nibbleLines, lowNibble, nibMask]

/-- The control lines are not among the nibble lines (30_encoding.md R71). -/
theorem nibbleLines_singleLine {m : Byte} (hm : Config.SingleLine m) : nibbleLines m = 0 := by
  obtain rfl | rfl | rfl := hm <;> rfl

/-- The modes that a nibble is sent with: to the instruction register or to the data register (30_encoding.md R72). -/
abbrev Mode (p : Params) (mode : Byte) : Prop := mode = 0x00 ∨ mode = p.rsMask

/-- The control lines lie within `0x07` (00_scope.md R9 (a)). -/
theorem line_of_low_clear {m v : Byte} (hm : Config.SingleLine m) (hv : v &&& 0x07 = 0) : (v &&& m != 0) = false := by
  have hm7 : m = 0x07 &&& m := by obtain rfl | rfl | rfl := hm <;> rfl
  rw [hm7, ← BitVec.and_assoc, hv]
  simp

/-- A byte of nibble lines alone carries no control line. -/
theorem low_clear_of_nibble {x : Byte} (hx : x &&& 0x0F = 0) : x &&& 0x07 = 0 := by
  rw [show (0x07 : Byte) = 0x0F &&& 0x07 from rfl, ← BitVec.and_assoc, hx]
  simp

/-- The composed byte of a nibble carries neither the enable bit nor the read/write bit (43_nibble_transport.md R159). -/
theorem quiet_composed {p : Params} (hp : p.WellFormed) {x mode : Byte} (hx : x &&& 0x0F = 0) (hm : Mode p mode)
    (bl : Bool) : Quiet p (x ||| mode ||| backlightBit bl) := by
  have hmode : Quiet p mode := by
    obtain rfl | rfl := hm
    · exact quiet_of_low_clear hp rfl
    · exact quiet_rsMask hp
  exact ((quiet_of_low_clear hp (low_clear_of_nibble hx)).or hmode).or (quiet_backlightBit hp bl)

/-- Raising the enable bit opens a pulse. -/
theorem enableLine_or_enMask {p : Params} (hp : p.WellFormed) (v : Byte) : enableLine p (v ||| p.enMask) = true := by
  obtain ⟨⟨he, -⟩, -⟩ := hp
  have hen : enableLine p p.enMask = true := by
    rw [enableLine, BitVec.and_self]
    obtain h | h | h := he <;> rw [h] <;> rfl
  rw [enableLine_or, hen, Bool.or_true]

/-- What the falling edge of a composed byte latches: its nibble, for the register of its mode. -/
theorem latchedFrom_composed {p : Params} (hp : p.WellFormed) {x mode : Byte} (hx : x &&& 0x0F = 0) (hm : Mode p mode)
    (bl : Bool) : latchedFrom p (x ||| mode ||| backlightBit bl ||| p.enMask) = ⟨selectLine p mode, nibbleLines x⟩ := by
  obtain ⟨⟨he, hr, -⟩, ⟨her, -, -⟩, -⟩ := hp
  have hsel : selectLine p x = false ∧ selectLine p (backlightBit bl) = false ∧ selectLine p p.enMask = false :=
    ⟨line_of_low_clear hr (low_clear_of_nibble hx), by cases bl <;> exact line_of_low_clear hr rfl,
      singleLine_disjoint he hr her⟩
  have hnib : nibbleLines mode = 0 ∧ nibbleLines (backlightBit bl) = 0 ∧ nibbleLines p.enMask = 0 := by
    refine ⟨?_, by cases bl <;> rfl, nibbleLines_singleLine he⟩
    obtain rfl | rfl := hm
    · rfl
    · exact nibbleLines_singleLine hr
  obtain ⟨hsx, hsb, hse⟩ := hsel
  obtain ⟨hnm, hnb, hne⟩ := hnib
  simp [latchedFrom, selectLine_or, nibbleLines_or, hsx, hsb, hse, hnm, hnb, hne]

/-- The register that a command's mode selects (30_encoding.md R72). -/
theorem selectLine_modeCommand (p : Params) : selectLine p 0x00 = false := by
  simp [selectLine]

/-- The register that data's mode selects (30_encoding.md R72). -/
theorem selectLine_rsMask {p : Params} (hp : p.WellFormed) : selectLine p p.rsMask = true := by
  obtain ⟨⟨-, hr, -⟩, -⟩ := hp
  rw [selectLine, BitVec.and_self]
  obtain h | h | h := hr <;> rw [h] <;> rfl

/-! ### What acknowledged events show -/

/-- The observer between two pulses: no write yet, or a known byte on the lines with the enable bit clear. -/
def Resting (p : Params) (o : Observer) : Prop :=
  o.lines = .unknown ∨ ∃ u, o.lines = .byte u ∧ enableLine p u = false

/-- The next acknowledged write after a rest shows nothing yet. -/
theorem Resting.after_wr {p : Params} {o : Observer} (ho : Resting p o) (a v : Byte) :
    o.after p (.wr a v .ok) = ⟨.byte v, o.records⟩ := by
  obtain ho | ⟨u, ho, hu⟩ := ho
  · simp [Observer.after, observeAcked, ho]
  · exact after_wr_quiet hu ho a

/-- Acknowledged, the wanted events add these records to an observer at rest, and leave it at rest (20_memory.md R66). -/
def Shows (p : Params) (ws : List Want) (rs : List LatchRecord) : Prop :=
  ∀ addr o, Resting p o →
    Resting p ((ws.map (Want.acked addr)).foldl (Observer.after p) o)
    ∧ ((ws.map (Want.acked addr)).foldl (Observer.after p) o).records = o.records ++ rs

theorem shows_nil (p : Params) : Shows p [] [] := fun _ _ ho => ⟨ho, (List.append_nil _).symm⟩

theorem shows_dly (p : Params) (n : Micros) : Shows p [.dly n] [] := fun _ _ ho => ⟨ho, (List.append_nil _).symm⟩

theorem shows_wr {p : Params} {v : Byte} (hv : enableLine p v = false) : Shows p [.wr v] [] := by
  intro addr o ho
  have hfold : ([Want.wr v].map (Want.acked addr)).foldl (Observer.after p) o = ⟨.byte v, o.records⟩ :=
    ho.after_wr addr v
  rw [hfold]
  exact ⟨.inr ⟨v, rfl, hv⟩, (List.append_nil _).symm⟩

theorem Shows.append {p : Params} {ws vs : List Want} {rs qs : List LatchRecord} (hw : Shows p ws rs)
    (hv : Shows p vs qs) : Shows p (ws ++ vs) (rs ++ qs) := by
  intro addr o ho
  obtain ⟨hrest, hrec⟩ := hw addr o ho
  obtain ⟨hrest', hrec'⟩ := hv addr _ hrest
  rw [List.map_append, List.foldl_append]
  exact ⟨hrest', by rw [hrec', hrec, List.append_assoc]⟩

theorem shows_flatten {p : Params} {lists : List (List Want)} {records : List (List LatchRecord)}
    (h : List.Forall₂ (Shows p) lists records) : Shows p lists.flatten records.flatten := by
  induction h with
  | nil => exact shows_nil p
  | cons hw _ ih => exact hw.append ih

/-- A nibble from a rest: its first write shows nothing, and then `observe_nibble`. -/
theorem shows_nibble {p : Params} (hp : p.WellFormed) {x mode : Byte} (hx : x &&& 0x0F = 0) (hm : Mode p mode)
    (bl : Bool) : Shows p (nibbleEvents p (x ||| mode ||| backlightBit bl))
      [.latched ⟨selectLine p mode, nibbleLines x⟩] := by
  intro addr o ho
  have hw : enableLine p (x ||| mode ||| backlightBit bl) = false := (quiet_composed hp hx hm bl).1
  have hfold : ((nibbleEvents p (x ||| mode ||| backlightBit bl)).map (Want.acked addr)).foldl (Observer.after p) o
      = ⟨.byte (x ||| mode ||| backlightBit bl), o.records ++ [.latched ⟨selectLine p mode, nibbleLines x⟩]⟩ := by
    rw [← latchedFrom_composed hp hx hm bl,
      ← observe_nibble hw hw (enableLine_or_enMask hp _) (o := ⟨_, o.records⟩) rfl addr]
    simp only [nibbleEvents, List.map_cons, List.foldl_cons, Want.acked, ho.after_wr,
      after_wr_quiet hw (o := ⟨.byte _, o.records⟩) rfl]
  rw [hfold]
  exact ⟨.inr ⟨_, rfl, hw⟩, rfl⟩

/-- The records of a byte delivered, high nibble first (20_memory.md R55, R66). -/
def byteRecords (b : Bool × Byte) : List LatchRecord :=
  [.latched ⟨b.1, b.2.extractLsb' 4 4⟩, .latched ⟨b.1, b.2.extractLsb' 0 4⟩]

theorem shows_byte {p : Params} (hp : p.WellFormed) {mode : Byte} (hm : Mode p mode) (bl : Bool) (b : Byte) :
    Shows p (byteEvents p bl mode b) (byteRecords (selectLine p mode, b)) := by
  have h := (shows_nibble hp (highNibble_low b) hm bl).append (shows_nibble hp (lowNibble_low b) hm bl)
  rw [nibbleLines_highNibble, nibbleLines_lowNibble] at h
  exact h

theorem shows_command {p : Params} (hp : p.WellFormed) (bl : Bool) (b : Byte) :
    Shows p (commandEvents p bl b) (byteRecords (false, b)) := by
  rw [← selectLine_modeCommand p]
  exact shows_byte hp (.inl rfl) bl b

theorem shows_text {p : Params} (hp : p.WellFormed) (bl : Bool) (text : List Byte) :
    Shows p (text.flatMap (dataEvents p bl)) ((text.map fun b => (true, b)).flatMap byteRecords) := by
  rw [← selectLine_rsMask hp]
  induction text with
  | nil => exact shows_nil p
  | cons b text ih => exact (shows_byte hp (.inr rfl) bl b).append ih

/-- Every acknowledged operation other than INIT shows the two nibbles of each of its bytes. -/
theorem shows_eventsOf {i : Instr} {s : State} (hp : s.par.WellFormed) (hi : isInit i = false) :
    Shows s.par (eventsOf i s) ((bytesOf i s).flatMap byteRecords) := by
  have command (b : Byte) := shows_command hp s.bl b
  have waiting (b : Byte) (n : Micros) := (command b).append (shows_dly s.par n)
  cases i with
  | init busId => cases hi
  | clear => exact waiting _ _
  | home => exact waiting _ _
  | setcursor col row => exact command _
  | display => exact command _
  | nodisplay => exact command _
  | backlight => exact shows_wr (quiet_of_low_clear hp rfl).1
  | nobacklight => exact shows_wr (quiet_of_low_clear hp rfl).1
  | prints text => exact shows_text hp s.bl text
  | printn n => exact shows_text hp s.bl (decimalChars n)
  | cmd b => exact command b
  | data b => exact shows_text hp s.bl [b]

/-- INIT's events after its backlight write show its four single nibbles and then its five bytes
(40_init_sequencer.md R104 to R110). -/
theorem shows_initEvents {p : Params} (hp : p.WellFormed) (rows : Word) (charSize : CharSize) (busId : Byte) :
    ∃ ws, initEvents p rows charSize busId = [.bind busId, .dly p.tPower, .wr 0x08, .dly p.tBlSettle] ++ ws
      ∧ Shows p ws ([.latched ⟨false, 3⟩, .latched ⟨false, 3⟩, .latched ⟨false, 3⟩, .latched ⟨false, 2⟩]
          ++ (initBytes p rows charSize).flatMap byteRecords) := by
  have single {x : Byte} (hx : x &&& 0x0F = 0) :
      Shows p (nibbleEvents p (x ||| 0x00 ||| backlightBit true)) [.latched ⟨false, nibbleLines x⟩] := by
    rw [← selectLine_modeCommand p]
    exact shows_nibble hp hx (.inl rfl) true
  have idle : Shows p (nibbleEvents p 0x38) [.latched ⟨false, 3⟩] := single (x := 0x30) rfl
  have latch : Shows p (nibbleEvents p 0x28) [.latched ⟨false, 2⟩] := single (x := 0x20) rfl
  have wait (n : Micros) := shows_dly p n
  have command (b : Byte) := shows_command hp true b
  exact ⟨_, rfl, shows_flatten (.cons idle <| .cons (wait _) <| .cons idle <| .cons (wait _) <| .cons idle <|
    .cons (wait _) <| .cons latch <| .cons (command _) <| .cons (command _) <| .cons (command _) <| .cons (wait _) <|
    .cons (command _) <| .cons (command _) <| .cons (wait _) .nil)⟩

/-! ### What the trace delivers -/

/-- The delivery of some records since reset: `delivered` and `pairingOf` are its two halves. -/
def deliveryOf (rs : List LatchRecord) : Delivery := rs.foldl Delivery.after ⟨.lost, []⟩

/-- A doubtful record delivers nothing, and after it no high nibble is expected. -/
theorem doubt_spec (d : Delivery) : d.doubt.bytes = d.bytes ∧ d.doubt.pairing ≠ .high := by
  obtain ⟨_ | _ | _ | _, bytes⟩ := d <;> exact ⟨rfl, nofun⟩

/-- The delivery of a whole trace is that of its records and then of what its end leaves open. -/
theorem deliveryOf_latchObservation (p : Params) (trace : List Event) :
    deliveryOf (latchObservation p trace)
      = (openRecord p (observe p trace).lines).foldl Delivery.after (deliveryOf (observe p trace).records) :=
  List.foldl_append

/-- What the end of a trace leaves open delivers nothing. -/
theorem delivered_eq (p : Params) (trace : List Event) :
    delivered p trace = (deliveryOf (observe p trace).records).bytes := by
  refine (congrArg Delivery.bytes (deliveryOf_latchObservation p trace)).trans ?_
  cases (observe p trace).lines with
  | unknown => rfl
  | byte v => rfl
  | gap vs => exact (doubt_spec _).1

/-- At a rest nothing is left open. -/
theorem Resting.latchObservation_eq {p : Params} {trace : List Event} (h : Resting p (observe p trace)) :
    latchObservation p trace = (observe p trace).records := by
  obtain h | ⟨u, h, -⟩ := h <;> simp [latchObservation, h, openRecord]

/-- Aligned pairs and no open pulse: the observer is at rest. -/
theorem resting_of_aligned {p : Params} {trace : List Event} (hopen : NoOpenPulse p (observe p trace))
    (h : pairingOf p trace = .high) : Resting p (observe p trace) := by
  cases hl : (observe p trace).lines with
  | unknown => exact .inl hl
  | byte v => exact .inr ⟨v, hl, hopen v hl⟩
  | gap vs =>
    have hend := congrArg Delivery.pairing (deliveryOf_latchObservation p trace)
    rw [hl] at hend
    exact absurd (hend.symm.trans h) (doubt_spec _).2

theorem highNibble_append_lowNibble (b : Byte) : b.extractLsb' 4 4 ++ b.extractLsb' 0 4 = b := by
  apply BitVec.eq_of_getLsbD_eq
  intro k hk
  rw [BitVec.getLsbD_append]
  interval_cases k <;> simp

/-- With a high nibble expected, the records of whole bytes deliver those bytes, and a high nibble is expected again
(20_memory.md R66). -/
theorem foldl_byteRecords (bytes : List (Bool × Byte)) (before : List (Bool × Byte)) :
    (bytes.flatMap byteRecords).foldl Delivery.after ⟨.high, before⟩ = ⟨.high, before ++ bytes⟩ := by
  induction bytes generalizing before with
  | nil => rw [List.append_nil]; rfl
  | cons b bytes ih =>
    have hb : (byteRecords b).foldl Delivery.after ⟨.high, before⟩ = ⟨.high, before ++ [b]⟩ := by
      simp [byteRecords, Delivery.after, Delivery.nibble, highNibble_append_lowNibble]
    rw [List.flatMap_cons, List.foldl_append, hb, ih, List.append_assoc]
    rfl

/-- Settles O17: aligned pairs mean a rest, from which the operation shows the records of its bytes. -/
theorem alignedOperationsDeliver : Obligations.AlignedOperationsDeliver := by
  intro i s hinv hready hi hhigh hacks
  obtain ⟨t, hexec, hobs⟩ := exec_observed hinv.params ⟨hready.1, .inr hready.2⟩ hacks
  have hrest := resting_of_aligned hinv.enable hhigh
  have hshow := shows_eventsOf hinv.params hi s.addr _ hrest
  rw [← hobs] at hshow
  obtain ⟨hrest', hrec⟩ := hshow
  have hbefore : deliveryOf (observe s.par s.trace).records = ⟨.high, delivered s.par s.trace⟩ := by
    rw [← hhigh, ← hrest.latchObservation_eq]
    rfl
  have hafter : deliveryOf (latchObservation s.par t.trace) = ⟨.high, delivered s.par s.trace ++ bytesOf i s⟩ := by
    rw [hrest'.latchObservation_eq, hrec, deliveryOf, List.foldl_append, ← deliveryOf, hbefore, foldl_byteRecords]
  exact ⟨t, hexec, congrArg Delivery.bytes hafter, congrArg Delivery.pairing hafter⟩

/-- An acknowledged byte without the enable bit ends what a failed write left open: at most one doubtful record. -/
theorem after_wr_closes {p : Params} {v : Byte} (hv : enableLine p v = false) {o : Observer} (ho : NoOpenPulse p o)
    (a : Byte) :
    ∃ gap, o.after p (.wr a v .ok) = ⟨.byte v, o.records ++ gap⟩ ∧ (gap = [] ∨ ∃ cs, gap = [.uncertain cs]) := by
  have rest (h : Resting p o) : o.after p (.wr a v .ok) = ⟨.byte v, o.records ++ []⟩ := by
    rw [h.after_wr, List.append_nil]
  cases hl : o.lines with
  | unknown => exact ⟨[], rest (.inl hl), .inl rfl⟩
  | byte u => exact ⟨[], rest (.inr ⟨u, hl, ho u hl⟩), .inl rfl⟩
  | gap vs =>
    refine ⟨gapRecord p vs, by simp [Observer.after, observeAcked, hl, hv], ?_⟩
    rw [gapRecord]
    cases candidates p vs with
    | nil => exact .inl rfl
    | cons c cs => exact .inr ⟨_, rfl⟩

/-- INIT's bind and backlight write, acknowledged: whatever was open before them is closed, and the four single nibbles
are still to come (40_init_sequencer.md R101, R103; notes/assumptions/18.md). -/
theorem observe_initStart {p : Params} (hp : p.WellFormed) {o : Observer} (ho : NoOpenPulse p o) (addr id : Byte)
    (n m : Micros) :
    ∃ rs, ([Want.bind id, .dly n, .wr 0x08, .dly m].map (Want.acked addr)).foldl (Observer.after p) o = ⟨.byte 0x08, rs⟩
      ∧ deliveryOf rs = ⟨.singles 4, (deliveryOf o.records).bytes⟩ := by
  have hopen : NoOpenPulse p ⟨o.lines, o.records ++ [.restart]⟩ := ho
  obtain ⟨gap, hafter, hgap⟩ := after_wr_closes (quiet_of_low_clear hp (v := 0x08) rfl).1 hopen addr
  refine ⟨_, hafter, ?_⟩
  rw [deliveryOf, List.foldl_append, List.foldl_append]
  obtain rfl | ⟨cs, rfl⟩ := hgap <;> rfl

/-- Settles O39: INIT's first write closes what was open, its single nibbles end at a high nibble, and its bytes follow. -/
theorem initRestartsPairing : Obligations.InitRestartsPairing := by
  intro busId s hinv hacks
  obtain ⟨t, hexec, hobs⟩ := exec_observed (i := .init busId) hinv.params ⟨⟨hinv.idle, hinv.rows⟩, .inl rfl⟩ hacks
  obtain ⟨ws, hws, hshows⟩ := shows_initEvents hinv.params s.rows s.charSize busId
  obtain ⟨rs, hstart, hsingles⟩ := observe_initStart hinv.params hinv.enable s.addr busId s.par.tPower s.par.tBlSettle
  have hshow := hshows s.addr ⟨.byte 0x08, rs⟩ (.inr ⟨_, rfl, (quiet_of_low_clear hinv.params rfl).1⟩)
  rw [eventsOf, hws, List.map_append, List.foldl_append, hstart] at hobs
  rw [← hobs] at hshow
  obtain ⟨hrest, hrec⟩ := hshow
  have hafter : deliveryOf (latchObservation s.par t.trace)
      = ⟨.high, delivered s.par s.trace ++ initBytes s.par s.rows s.charSize⟩ := by
    rw [hrest.latchObservation_eq, hrec, deliveryOf, List.foldl_append, ← deliveryOf, hsingles, List.foldl_append,
      delivered_eq, ← foldl_byteRecords]
    rfl
  exact ⟨t, hexec, congrArg Delivery.bytes hafter, congrArg Delivery.pairing hafter⟩

/-! ### A byte whose transmission fails -/

theorem play_append_of_failed {ans : Nat → Answer} {k n : Nat} {ws : List Want} (hn : n < questions ws)
    (h : ans (k + n) = .busError) (addr : Byte) (vs : List Want) :
    play addr ans k (ws ++ vs) = play addr ans k ws := by
  rw [play_append, if_pos ((play_any_failed addr ans k ws).mpr ⟨n, hn, h⟩), List.append_nil]

theorem play_append_of_acks {ans : Nat → Answer} {k : Nat} {ws : List Want}
    (h : ∀ n, n < questions ws → ans (k + n) = .ok) (addr : Byte) (vs : List Want) :
    play addr ans k (ws ++ vs) = ws.map (Want.acked addr) ++ play addr ans (k + questions ws) vs := by
  have hany : (play addr ans k ws).any Event.isFailed ≠ true := by
    rw [Ne, play_any_failed]
    rintro ⟨n, hn, hb⟩
    rw [h n hn] at hb
    cases hb
  rw [play_append, if_neg hany, play_of_acks addr ans k ws h]

/-- A failed write of a nibble, from a rest: nothing is latched for certain, and only a failure after the enable bit
went up may have latched the nibble (20_memory.md R66). -/
theorem observe_failed_nibble {p : Params} {w : Byte} (hw : enableLine p w = false)
    (he : enableLine p (w ||| p.enMask) = true) {o : Observer} (ho : Resting p o) (addr : Byte) {ans : Nat → Answer}
    {k j : Nat} (hj : j < 3) (hok : ∀ n, n < j → ans (k + n) = .ok) (hbad : ans (k + j) = .busError) :
    ∃ vs, (play addr ans k (nibbleEvents p w)).foldl (Observer.after p) o = ⟨.gap vs, o.records⟩
      ∧ candidates p vs = if j = 0 then [] else [latchedFrom p (w ||| p.enMask)] := by
  interval_cases j
  · have h : ans k = .busError := hbad
    obtain ho | ⟨u, ho, hu⟩ := ho
    · exact ⟨[w], by simp [nibbleEvents, play, h, observeFailed, ho], by simp [candidates, hw]⟩
    · exact ⟨[u, w], by simp [nibbleEvents, play, h, observeFailed, ho], by simp [candidates, hw, hu]⟩
  · have h : ans k = .ok := hok 0 (by omega)
    exact ⟨[w, w ||| p.enMask], by simp [nibbleEvents, play, h, hbad, ho.after_wr, observeFailed],
      by simp [candidates, hw, he]⟩
  · have h : ans k = .ok := hok 0 (by omega)
    have h1 : ans (k + 1) = .ok := hok 1 (by omega)
    have hedge := after_wr_quiet hw (o := ⟨.byte w, o.records⟩) rfl addr (v := w ||| p.enMask)
    exact ⟨[w ||| p.enMask, w], by simp [nibbleEvents, play, h, h1, hbad, ho.after_wr, hedge, observeFailed],
      by simp [candidates, hw, he]⟩

/-- A byte whose write `j` is the first to fail: before write 3 the high nibble is cut short, and from it on the high
nibble is latched and the low one cut short (20_memory.md R57). -/
theorem latchObservation_failed_byte {p : Params} (hp : p.WellFormed) {mode : Byte} (hm : Mode p mode) (bl : Bool)
    (b addr : Byte) {ans : Nat → Answer} {j : Nat} (hj : j < 6) (hok : ∀ n, n < j → ans n = .ok)
    (hbad : ans j = .busError) :
    latchObservation p (play addr ans 0 (byteEvents p bl mode b)) = failedByteRecords (selectLine p mode) b j := by
  have cut {x : Byte} (hx : x &&& 0x0F = 0) {o : Observer} (ho : Resting p o) {k i : Nat} (hi : i < 3)
      (hki : k + i = j) :
      ∃ vs, (play addr ans k (nibbleEvents p (x ||| mode ||| backlightBit bl))).foldl (Observer.after p) o
          = ⟨.gap vs, o.records⟩
        ∧ candidates p vs = if i = 0 then [] else [⟨selectLine p mode, nibbleLines x⟩] := by
    rw [← latchedFrom_composed hp hx hm bl]
    exact observe_failed_nibble (quiet_composed hp hx hm bl).1 (enableLine_or_enMask hp _) ho addr hi
      (fun n hn => hok _ (by omega)) (by rw [hki]; exact hbad)
  have start : Resting p ⟨.unknown, []⟩ := .inl rfl
  change latchObservation p (play addr ans 0
    (nibbleEvents p (highNibble b ||| mode ||| backlightBit bl)
      ++ nibbleEvents p (lowNibble b ||| mode ||| backlightBit bl))) = _
  have hthree (v : Byte) : questions (nibbleEvents p v) = 3 := rfl
  by_cases hlt : j < 3
  · obtain ⟨vs, hobs, hvs⟩ := cut (highNibble_low b) start hlt (Nat.zero_add j)
    rw [play_append_of_failed (n := j) (by rw [hthree]; exact hlt) (by rw [Nat.zero_add]; exact hbad), latchObservation,
      observe, hobs]
    simp [openRecord, hvs, failedByteRecords, hlt, nibbleLines_highNibble, Nat.mod_eq_of_lt hlt]
  · obtain ⟨i, rfl⟩ : ∃ i, j = 3 + i := ⟨j - 3, by omega⟩
    obtain ⟨hrest, hrec⟩ := shows_nibble hp (highNibble_low b) hm bl addr _ start
    obtain ⟨vs, hobs, hvs⟩ := cut (lowNibble_low b) hrest (i := i) (by omega) rfl
    have hmod : (3 + i) % 3 = i := by omega
    rw [play_append_of_acks fun n hn => hok _ (by rw [hthree] at hn; omega), hthree, Nat.zero_add, latchObservation,
      observe, List.foldl_append, hobs, hrec]
    simp [openRecord, hvs, failedByteRecords, hmod, nibbleLines_highNibble, nibbleLines_lowNibble]

theorem latchObservation_done (p : Params) (es : List Event) (st : Status) (v : Byte) :
    latchObservation p (es ++ [.done st v]) = latchObservation p es := by
  rw [latchObservation, observe_append]
  rfl

/-- An operation that sends one byte, and whose write `j` is the first to fail. -/
theorem exec_failed_byte {i : Instr} {s : State} {mode b : Byte} {j : Nat} (hready : Ready s) (hp : s.par.WellFormed)
    (hm : Mode s.par mode) (hev : eventsOf i s = byteEvents s.par s.bl mode b) (hj : j < 6) (hf : FailsAt s j) :
    ∃ t es, exec i s = .next t ∧ t.trace = s.trace ++ es
      ∧ latchObservation s.par es = failedByteRecords (selectLine s.par mode) b j := by
  obtain ⟨t, hexec, htrace⟩ := execRefinesEventLists i s hp ⟨hready.1, .inr hready.2⟩
  refine ⟨t, _, hexec, htrace.trans (List.append_assoc _ _ _), ?_⟩
  rw [latchObservation_done, hev]
  exact latchObservation_failed_byte hp hm s.bl b s.addr hj hf.1 hf.2

/-- Settles O16: DATA and CMD each send one byte. -/
theorem failedByteNibbles : Obligations.FailedByteNibbles := by
  intro b s j hready hp hj hf
  constructor
  · rw [← selectLine_rsMask hp]
    exact exec_failed_byte hready hp (.inr rfl) rfl hj hf
  · rw [← selectLine_modeCommand s.par]
    exact exec_failed_byte hready hp (.inl rfl) rfl hj hf

end Sys2Proof.Proofs
end

section
/-! SUPPORT. The encoding family (30_encoding.md): decoder and encoder agree in both directions (R80 to R88), hence no
packet begins another (R89); reserved opcodes (R83); the completion record (R85). -/

namespace Sys2Proof.Proofs

open Sys2Proof.Machine Sys2Proof.Safety Sys2Proof.Laws

/-! ### Decoder and encoder -/

/-- Settles O1: each opcode selects its format's reader, which gives the operands back. -/
theorem decodeReadsEncodedPacket : Obligations.DecodeReadsEncodedPacket := by
  intro i rest hwf
  cases i with
  | prints text => exact decodeS_append (of_decide_eq_true hwf) rest
  | printn n => exact decodeI_append n rest
  | _ => rfl

/-- Settles O2: per opcode, by what its format's reader accepts. -/
theorem decodedPacketIsItsEncoding : Obligations.DecodedPacketIsItsEncoding := by
  intro bytes rest i h
  cases bytes with
  | nil => cases h
  | cons op tail =>
    simp only [decode] at h
    split at h
    case h_13 => cases h
    all_goals
      rename_i hop
      obtain rfl := byte_eq_of_toNat hop
    case h_2 | h_3 | h_5 | h_6 | h_7 | h_8 => cases h; exact ⟨rfl, rfl⟩
    case h_1 | h_11 | h_12 => obtain ⟨b, rfl, rfl⟩ := decodeB_packet h; exact ⟨rfl, rfl⟩
    case h_4 => obtain ⟨col, row, rfl, rfl⟩ := decodeCR_packet h; exact ⟨rfl, rfl⟩
    case h_9 => obtain ⟨text, hlen, rfl, rfl⟩ := decodeS_packet h; exact ⟨decide_eq_true hlen, rfl⟩
    case h_10 => obtain ⟨n, rfl, rfl⟩ := decodeI_packet h; exact ⟨rfl, rfl⟩

/-- Settles O3: the bytes taken are the operation's packet, whose length is read off its constructor. -/
theorem packetLengthFollowsFormat : Obligations.PacketLengthFollowsFormat := by
  intro op tail rest i h
  obtain ⟨hwf, hbytes⟩ := decodedPacketIsItsEncoding _ _ _ h
  obtain ⟨rfl, rfl⟩ : op = i.opcode ∧ tail = encodeOperands i ++ rest := List.cons.inj hbytes
  cases i with
  | prints text =>
    have hlen : text.length ≤ 255 := of_decide_eq_true hwf
    simp +arith [Instr.opcode, encodeOperands, Nat.mod_eq_of_lt (Nat.lt_succ_of_le hlen)]
  | _ => simp [Instr.opcode, encodeOperands, wordBytes]

/-! ### Reserved opcodes and incomplete packets -/

theorem decodeB_ne_reserved {mk : Byte → Instr} {bytes rest : List Byte} {op : Byte} :
    decodeB mk bytes ≠ .reserved op rest := by
  unfold decodeB
  split <;> nofun

theorem decodeCR_ne_reserved {mk : Byte → Byte → Instr} {bytes rest : List Byte} {op : Byte} :
    decodeCR mk bytes ≠ .reserved op rest := by
  unfold decodeCR
  split <;> nofun

theorem decodeS_ne_reserved {mk : List Byte → Instr} {bytes rest : List Byte} {op : Byte} :
    decodeS mk bytes ≠ .reserved op rest := by
  unfold decodeS
  split
  · split <;> nofun
  · nofun

theorem decodeI_ne_reserved {mk : Word → Instr} {bytes rest : List Byte} {op : Byte} :
    decodeI mk bytes ≠ .reserved op rest := by
  unfold decodeI
  split <;> nofun

/-- The reserved opcodes are 0x00 and 0x0D to 0xFF, whatever follows them (R83). -/
theorem decode_eq_reserved_iff {bytes rest : List Byte} {op : Byte} :
    decode bytes = .reserved op rest ↔ bytes = op :: rest ∧ (op = 0x00 ∨ 0x0D ≤ op.toNat) := by
  constructor
  · intro h
    cases bytes with
    | nil => cases h
    | cons b tail =>
      simp only [decode] at h
      split at h
      case h_1 | h_11 | h_12 => exact absurd h decodeB_ne_reserved
      case h_2 | h_3 | h_5 | h_6 | h_7 | h_8 => cases h
      case h_4 => exact absurd h decodeCR_ne_reserved
      case h_9 => exact absurd h decodeS_ne_reserved
      case h_10 => exact absurd h decodeI_ne_reserved
      case h_13 =>
        cases h
        refine ⟨rfl, ?_⟩
        simp only [imp_false] at *
        bv_omega
  · rintro ⟨rfl, hop⟩
    have hrange : op.toNat = 0 ∨ 0x0D ≤ op.toNat := hop.imp_left (congrArg BitVec.toNat)
    simp only [decode]
    split
    case h_13 => rfl
    all_goals omega

/-- No packet begins another operation's packet: a proper prefix is none (R89). -/
theorem decode_take_encode {i : Instr} {k : Nat} (hwf : i.wf = true) (hk : k < (encode i).length) :
    decode ((encode i).take k) = .incomplete := by
  have hsplit := List.take_append_drop k (encode i)
  have hwhole : decode (encode i) = .packet i [] := by simpa using decodeReadsEncodedPacket i [] hwf
  cases hd : decode ((encode i).take k) with
  | incomplete => rfl
  | reserved op rest =>
    obtain ⟨htake, hop⟩ := decode_eq_reserved_iff.mp hd
    have hres : decode (encode i) = .reserved op (rest ++ (encode i).drop k) :=
      decode_eq_reserved_iff.mpr ⟨by rw [← List.cons_append, ← htake, hsplit], hop⟩
    cases hwhole.symm.trans hres
  | packet j rest =>
    obtain ⟨hj, htake⟩ := decodedPacketIsItsEncoding _ _ _ hd
    have hlonger : decode (encode i) = .packet j (rest ++ (encode i).drop k) := by
      rw [← decodeReadsEncodedPacket j _ hj, ← List.append_assoc, ← htake, hsplit]
    have hnil : rest ++ (encode i).drop k = [] := (Decoded.packet.inj (hlonger.symm.trans hwhole)).2
    have hdrop : (encode i).drop k = [] := (List.append_eq_nil_iff.mp hnil).2
    exact absurd (List.drop_eq_nil_iff.mp hdrop) (Nat.not_le.mpr hk)

/-- Settles O4: a proper prefix is no packet, and a packet is read up to its last byte. -/
theorem incompletePacketDoesNothing : Obligations.IncompletePacketDoesNothing := by
  refine ⟨fun i k s hwf hk hb hport => ?_, fun i rest s hwf hb hport => ?_⟩
  · have hfetch : fetch s = .none := by simp [fetch, hb, hport, decode_take_encode hwf hk]
    rw [step, hfetch]
  · exact stepRunsDecodedOperation s i rest hb (hport ▸ decodeReadsEncodedPacket i rest hwf)

/-- At rest a completion changes the record and the trace only. -/
theorem complete_of_not_busy {s : State} (h : s.busy = false) (st : Status) (v : Byte) :
    s.complete st v = { s with status := st, value := v, trace := s.trace ++ [.done st v] } := by
  rw [State.complete, h]

theorem execReserved_of_idle {s : State} (h : Idle s) : execReserved s = .next (s.complete .refused 0) :=
  admission_of_idle h false id

/-- Settles O5: the opcode is consumed alone and never admitted. -/
theorem reservedOpcodeIsRefused : Obligations.ReservedOpcodeIsRefused := by
  intro op rest s hop hidle hport
  have hfetch : fetch s = .reserved (s.setPort rest) := by
    simp [fetch, hidle.1, decode_eq_reserved_iff.mpr ⟨hport, hop⟩]
  have hrest : Idle (s.setPort rest) := hidle
  have hrefused := execReserved_of_idle hrest
  rw [complete_of_not_busy hrest.1] at hrefused
  rw [step, hfetch]
  exact hrefused

/-! ### Fixed packets and the completion record -/

/-- Settles O6: evaluation of the decoder on each packet. -/
theorem vectorPacketsDecode : Obligations.VectorPacketsDecode := by
  unfold Obligations.VectorPacketsDecode
  decide

/-- Settles O11: the two-bit code of `STATUS` widened to a byte. -/
theorem completionRecordEncoding : Obligations.CompletionRecordEncoding := by
  intro s
  refine ⟨fun h => ?_, fun h => ?_, fun h => ?_⟩ <;> rw [State.completionRecord, h] <;> rfl

end Sys2Proof.Proofs
end

section
/-! SUPPORT. The INIT family (40_init_sequencer.md): the whole sequence, its totals and what it delivers (R100 to R111,
R113, R114), and where a `BusError` leaves it (R112). -/

namespace Sys2Proof.Proofs

open Sys2Proof.Config (Params CharSize)
open Sys2Proof.Machine Sys2Proof.Safety Sys2Proof.Laws

/-! ### The registers an operation leaves -/

theorem opsOf_accept (i : Instr) (s : State) : opsOf i s.accept = opsOf i s := by
  cases i <;> rfl

/-- The registers a run leaves are those its operation leaves: acceptance and completion write none. -/
theorem exec_writable_of_run {i : Instr} {s t : State} {ws : List MicroOp} (ha : Admitted i s)
    (hexec : exec i s = .next t) (hrun : SameWritable (regWrites ws s.accept) (runOps (opsOf i s) s.accept).state) :
    SameWritable (regWrites ws s) t := by
  obtain ⟨st, v, hadm, -⟩ := exec_of_admitted ha
  rw [hexec, opsOf_accept] at hadm
  cases hadm
  have haccept : SameWritable (regWrites ws s) (regWrites ws s.accept) :=
    regWrites_congr ws ⟨rfl, rfl, rfl, rfl, rfl, rfl⟩
  exact sameWritable_trans haccept (sameWritable_trans hrun (complete_writable _ _ _))

/-- Every question answered `ok`: every register write has been made. -/
theorem exec_writable_of_acks {i : Instr} {s t : State} (ha : Admitted i s) (hexec : exec i s = .next t)
    (hacks : Acks s (asksOf (opsOf i s))) : SameWritable (regWrites (opsOf i s) s) t := by
  obtain ⟨u, hu, hw⟩ := runOps_of_acks (s := s.accept) hacks
  exact exec_writable_of_run ha hexec (by rwa [hu])

/-- The first `BusError` at question `j`: exactly the register writes before it have been made. -/
theorem exec_writable_of_failsAt {i : Instr} {s t : State} {j : Nat} (ha : Admitted i s) (hexec : exec i s = .next t)
    (hj : j < asksOf (opsOf i s)) (hf : FailsAt s j) : SameWritable (regWrites (beforeQuestion j (opsOf i s)) s) t := by
  obtain ⟨u, hu, hw⟩ := runOps_of_failsAt (s := s.accept) hj hf
  exact exec_writable_of_run ha hexec (by rwa [hu])

/-! ### Lists that write registers before they ask -/

/-- A question, a bus write or a wait: no register write. -/
def writesNone (m : MicroOp) : Bool := asks m || isBus m

theorem regWrite_of_writesNone {m : MicroOp} (h : writesNone m = true) (s : State) : regWrite m s = s := by
  cases m with
  | bind _ | write _ | delay _ => rfl
  | _ => cases h

theorem regWrites_of_writesNone {ops : List MicroOp} (h : ops.all writesNone = true) (s : State) :
    regWrites ops s = s := by
  induction ops with
  | nil => rfl
  | cons m ms ih =>
    rw [List.all_cons, Bool.and_eq_true] at h
    rw [regWrites_cons, regWrite_of_writesNone h.1, ih h.2]

theorem beforeQuestion_prefix (j : Nat) (ops : List MicroOp) : beforeQuestion j ops <+: ops := by
  induction ops generalizing j with
  | nil => cases j <;> exact List.nil_prefix
  | cons m ms ih =>
    have goesOn (i : Nat) : m :: beforeQuestion i ms <+: m :: ms := (List.prefix_cons_inj m).mpr (ih i)
    cases j <;> rw [beforeQuestion] <;> split
    exacts [List.nil_prefix, goesOn 0, goesOn _, goesOn _]

/-- A stretch of an operation: its register writes and the waits among them, then its questions and waits. -/
structure Stretch where
  setup     : List MicroOp
  bus       : List MicroOp
  questions : Nat

def Stretch.ops (st : Stretch) : List MicroOp := st.setup ++ st.bus

/-- Nothing is asked before the writes are made, then that many questions are asked and nothing is written. -/
def Stretch.writesFirst (st : Stretch) : Bool :=
  asksOf st.setup == 0 && asksOf st.bus == st.questions && st.bus.all writesNone

/-- The writes made when question `j` of some stretches is asked: those of the stretches begun. -/
def writesBegun : Nat → List Stretch → List MicroOp
  | _, [] => []
  | j, st :: sts => st.setup ++ if j < st.questions then [] else writesBegun (j - st.questions) sts

/-- Stopped at a question of a stretch, a list has made the writes of that stretch and of those before it. -/
theorem regWrites_beforeQuestion_flatMap {sts : List Stretch} (h : sts.all Stretch.writesFirst = true) (j : Nat)
    (s : State) : regWrites (beforeQuestion j (sts.flatMap Stretch.ops)) s = regWrites (writesBegun j sts) s := by
  induction sts generalizing j s with
  | nil => cases j <;> rfl
  | cons st sts ih =>
    simp only [List.all_cons, Bool.and_eq_true, Stretch.writesFirst, beq_iff_eq] at h
    obtain ⟨⟨⟨hsetup, hasks⟩, hbus⟩, hsts⟩ := h
    have hcut : (beforeQuestion j st.bus).all writesNone = true :=
      List.all_eq_true.mpr fun m hm => List.all_eq_true.mp hbus m ((beforeQuestion_prefix j st.bus).mem hm)
    rw [List.flatMap_cons, Stretch.ops, List.append_assoc, beforeQuestion_append, hsetup, if_neg (Nat.not_lt_zero j),
      Nat.sub_zero, regWrites_append, beforeQuestion_append, hasks, writesBegun, regWrites_append]
    split
    · rw [regWrites_of_writesNone hcut]; rfl
    · rw [regWrites_append, regWrites_of_writesNone hbus, ih hsts]

theorem beforeQuestion_asksOf (ops : List MicroOp) : beforeQuestion (asksOf ops) ops = ops := by
  have h := beforeQuestion_append (asksOf ops) ops []
  rwa [List.append_nil, if_neg (Nat.lt_irrefl _), Nat.sub_self, beforeQuestion, List.append_nil] at h

/-! ### INIT, complete or stopped -/

/-- INIT, phase by phase (40_init_sequencer.md R101 to R110): steps 1 and 2 share one `PHASE`, step 3 has three. -/
def initStretches (busId : Byte) (p : Params) (rows : Word) (charSize : CharSize) : List Stretch :=
  [⟨[.setPhase .unpowered, .setBusId busId], [.bind busId], 1⟩,
   ⟨[.setPhase .powerSettle, .delay p.tPower, .setBl initBacklight],
     expanderWrite 0x00 ++ [MicroOp.delay p.tBlSettle], 1⟩,
   ⟨[.setPhase .forceIdle1], writeNibble p nibIdle modeCommand ++ [MicroOp.delay tIdleLong], 3⟩,
   ⟨[.setPhase .forceIdle2], writeNibble p nibIdle modeCommand ++ [MicroOp.delay tIdleLong], 3⟩,
   ⟨[.setPhase .forceIdle3], writeNibble p nibIdle modeCommand ++ [MicroOp.delay tIdleShort], 3⟩,
   ⟨[.setPhase .fourBitLatch], writeNibble p nib4Bit modeCommand, 3⟩,
   ⟨[.setPhase .functionSet, .setDf (functionFlags p rows charSize)],
     sendCommand p (p.functionSet ||| functionFlags p rows charSize), 6⟩,
   ⟨[.setPhase .displayOn, .setDc (initialDisplayFlags p)],
     sendCommand p (p.displayControl ||| initialDisplayFlags p), 6⟩,
   ⟨[.setPhase .cleared], sendCommand p p.clearDisplay ++ [MicroOp.delay tClear], 6⟩,
   ⟨[.setPhase .entryModeSet, .setDm (entryFlags p)], sendCommand p (p.entryModeSet ||| entryFlags p), 6⟩,
   ⟨[.setPhase .homed], sendCommand p p.returnHome ++ [MicroOp.delay tHome], 6⟩,
   ⟨[.setPhase .ready], [], 0⟩]

theorem initOps_eq_initStretches (busId : Byte) (p : Params) (rows : Word) (charSize : CharSize) :
    initOps busId p rows charSize = (initStretches busId p rows charSize).flatMap Stretch.ops := by
  simp only [initOps, initBind, initPowerSettle, initBacklightAssert, initForceIdle, initFourBitLatch, initFunctionSet,
    initDisplayOn, initCleared, initEntryMode, initHomed, initStretches, List.flatMap_cons, List.flatMap_nil,
    Stretch.ops, List.cons_append, List.nil_append, List.append_nil, List.append_assoc]

theorem initStretches_writesFirst (busId : Byte) (p : Params) (rows : Word) (charSize : CharSize) :
    (initStretches busId p rows charSize).all Stretch.writesFirst = true := rfl

/-- INIT asks 44 questions: the bind and the 43 bus writes. -/
theorem asksOf_opsOf_init (busId : Byte) {s : State} (h : Idle s) (hp : s.par.WellFormed) :
    asksOf (opsOf (.init busId) s) = 44 := by
  rw [← questions_wants s.bl, wants_opsOf hp h.2]
  rfl

/-- The writes of the stretches that INIT has begun when it is stopped at question `j`, or all of them at `j = 44`. -/
def initWrites (busId : Byte) (s : State) (j : Nat) : List MicroOp :=
  writesBegun j (initStretches busId s.par s.rows s.charSize)

theorem regWrites_beforeQuestion_init (busId : Byte) (s : State) (j : Nat) :
    regWrites (beforeQuestion j (opsOf (.init busId) s)) s = regWrites (initWrites busId s j) s := by
  rw [opsOf, initOps_eq_initStretches, initWrites,
    regWrites_beforeQuestion_flatMap (initStretches_writesFirst busId s.par s.rows s.charSize)]

/-- INIT completes, with its event list acknowledged whole or cut at the first `BusError`, and with the registers of the
stretches begun. -/
theorem exec_init (busId : Byte) {s : State} (h : Idle s) (hp : s.par.WellFormed) :
    ∃ t, exec (.init busId) s = .next t ∧ SameConfig s t ∧ t.port = s.port
      ∧ (Acks s 44 → EndedWith s t (initEvents s.par s.rows s.charSize busId) 0
          ∧ SameWritable (regWrites (initWrites busId s 44) s) t)
      ∧ ∀ j, j < 44 → FailsAt s j →
          Ended s t (play s.addr s.answerAt 0 (initEvents s.par s.rows s.charSize busId)) .busErr 0
          ∧ SameWritable (regWrites (initWrites busId s j) s) t := by
  have ha : Admitted (.init busId) s := ⟨h, .inl rfl⟩
  have hasks := asksOf_opsOf_init busId h hp
  obtain ⟨t, hexec, ⟨hc, hport⟩, hacked, hfailed⟩ :
      Transacts (.init busId) s (initEvents s.par s.rows s.charSize busId) 0
        fun s t => SameConfig s t ∧ t.port = s.port :=
    transacts_of_wants ha rfl (wants_opsOf (s := s.accept) hp h.2) (fun _ hc hport _ => ⟨hc, hport⟩) nofun fun _ => rfl
  refine ⟨t, hexec, hc, hport, fun hacks => ⟨hacked hacks, ?_⟩, fun j hj hf => ⟨hfailed j hj hf, ?_⟩⟩
  · rw [← regWrites_beforeQuestion_init, ← hasks, beforeQuestion_asksOf]
    exact exec_writable_of_acks ha hexec (by rwa [hasks])
  · rw [← regWrites_beforeQuestion_init]
    exact exec_writable_of_failsAt ha hexec (by rwa [hasks]) hf

/-- Settles O34: the events of the completed run, and the registers that the writes of all its steps leave. -/
theorem initRunsWholeSequence : Obligations.InitRunsWholeSequence := by
  intro busId s h hp hacks
  obtain ⟨t, hexec, hc, hport, hacked, -⟩ := exec_init busId h hp
  obtain ⟨hended, hdf, hdc, hdm, hbl, hphase, hbusId⟩ := hacked hacks
  exact ⟨rfl, t, hexec, hended, hc, hport, hbusId, hphase, hbl, hdf, hdc, hdm⟩

/-- The `PHASE` in which INIT asks its question `j` (40_init_sequencer.md R101 to R110). -/
def phaseAtQuestion (j : Nat) : Phase :=
  if j = 0 then .unpowered else if j ≤ 1 then .powerSettle else if j ≤ 4 then .forceIdle1
  else if j ≤ 7 then .forceIdle2 else if j ≤ 10 then .forceIdle3 else if j ≤ 13 then .fourBitLatch
  else if j ≤ 19 then .functionSet else if j ≤ 25 then .displayOn else if j ≤ 31 then .cleared
  else if j ≤ 37 then .entryModeSet else .homed

theorem phaseAtQuestion_ne_ready (j : Nat) : phaseAtQuestion j ≠ .ready := by
  simp [phaseAtQuestion, ite_eq_iff]

/-- The registers when INIT asks question `j`. In each stretch the writes begun are one fixed list, and each register
holds the last write to it. -/
theorem regWrites_initWrites (busId : Byte) (s : State) {j : Nat} (hj : j < 44) :
    SameWritable
      { s with
        busId := busId
        phase := phaseAtQuestion j
        bl := if 1 ≤ j then true else s.bl
        df := if 14 ≤ j then functionSetFlags s.par s.rows s.charSize else s.df
        dc := if 20 ≤ j then displayOnFlags s.par else s.dc
        dm := if 32 ≤ j then entryModeFlags s.par else s.dm }
      (regWrites (initWrites busId s j) s) := by
  obtain ⟨hdf, hdc, hdm, hbl, hphase, hbusId⟩ := regWrites_fields (initWrites busId s j) s
  unfold SameWritable
  rw [hdf, hdc, hdm, hbl, hphase, hbusId]
  simp only [initWrites, initStretches, writesBegun, phaseAtQuestion, Nat.sub_sub, Nat.reduceAdd]
  obtain h | h | h | h | h | h | h | h | h | h | h :
      j < 1 ∨ 1 ≤ j ∧ j < 2 ∨ 2 ≤ j ∧ j < 5 ∨ 5 ≤ j ∧ j < 8 ∨ 8 ≤ j ∧ j < 11 ∨ 11 ≤ j ∧ j < 14 ∨ 14 ≤ j ∧ j < 20
        ∨ 20 ≤ j ∧ j < 26 ∨ 26 ≤ j ∧ j < 32 ∨ 32 ≤ j ∧ j < 38 ∨ 38 ≤ j ∧ j < 44 := by omega
  all_goals
    simp (disch := omega) only [if_pos, if_neg]
    exact ⟨rfl, rfl, rfl, rfl, rfl, rfl⟩

/-- Settles O35: the events up to the failed one, the registers of the stretches begun, and no `PHASE` of an INIT in
progress admits another operation. -/
theorem initFailureStopsAtItsStep : Obligations.InitFailureStopsAtItsStep := by
  intro busId s j h hp hj hf
  obtain ⟨t, hexec, hc, hport, -, hfailed⟩ := exec_init busId h hp
  obtain ⟨hended, hw⟩ := hfailed j hj hf
  obtain ⟨hdf, hdc, hdm, hbl, hphase, hbusId⟩ := sameWritable_trans (regWrites_initWrites busId s hj) hw
  refine ⟨t, hexec, hended, hc, hport, hbusId, hphase, hbl, hdf, hdc, hdm, fun i hi => ?_⟩
  obtain ⟨hbusy, -⟩ := hended
  obtain ⟨-, -, hrows, -⟩ := hc
  have hstopped : t.phase ≠ .ready := by rw [hphase]; exact phaseAtQuestion_ne_ready j
  rw [exec_of_not_ready ⟨hbusy, hrows ▸ h.2⟩ hi hstopped, complete_of_not_busy hbusy]

/-! ### The totals of a successful INIT -/

/-- How many acknowledged binds to `id` and how many bus writes the events are, and the microseconds they request
(40_init_sequencer.md R111; 70_reset_and_hazards.md R208). -/
structure Totals (id : Byte) (es : List Event) (binds writes micros : Nat) : Prop where
  binds  : (es.filter fun e => e = .bind id .ok).length = binds
  writes : (es.filter Event.isWrite).length = writes
  micros : (es.map Event.delay).sum = micros

theorem Totals.append {id : Byte} {es fs : List Event} {b b' w w' m m' : Nat} (h : Totals id es b w m)
    (g : Totals id fs b' w' m') : Totals id (es ++ fs) (b + b') (w + w') (m + m') where
  binds := by rw [List.filter_append, List.length_append, h.binds, g.binds]
  writes := by rw [List.filter_append, List.length_append, h.writes, g.writes]
  micros := by rw [List.map_append, List.sum_append, h.micros, g.micros]

section
variable (id addr : Byte) (p : Params)

theorem totals_dly (n : Micros) : Totals id [.dly n] 0 0 n.toNat := ⟨rfl, rfl, rfl⟩

theorem totals_nibble (w : Byte) : Totals id ((nibbleEvents p w).map (Want.acked addr)) 0 3 51 := ⟨rfl, rfl, rfl⟩

/-- A byte is two nibbles (43_nibble_transport.md R153). -/
theorem totals_command (b : Byte) : Totals id ((commandEvents p true b).map (Want.acked addr)) 0 6 102 :=
  (totals_nibble id addr p _).append (totals_nibble id addr p _)

end

theorem totals_initEvents (p : Params) (rows : Word) (charSize : CharSize) (busId addr : Byte) :
    Totals busId ((initEvents p rows charSize busId).map (Want.acked addr)) 1 43
      (p.tPower.toNat + p.tBlSettle.toNat + 13864) := by
  have start : Totals busId ([Want.bind busId, .dly p.tPower, .wr 0x08, .dly p.tBlSettle].map (Want.acked addr)) 1 1
      (p.tPower.toNat + p.tBlSettle.toNat) := ⟨by simp [Want.acked], rfl, by simp [Want.acked, Event.delay]⟩
  have nibble (w : Byte) := totals_nibble busId addr p w
  have command (b : Byte) := totals_command busId addr p b
  have wait (n : Micros) := totals_dly busId n
  have h : Totals busId ((initEvents p rows charSize busId).map (Want.acked addr)) _ _ _ := start.append <|
    (nibble 0x38).append <| (wait 4500).append <| (nibble 0x38).append <| (wait 4500).append <|
    (nibble 0x38).append <| (wait 150).append <| (nibble 0x28).append <|
    (command (p.functionSet ||| functionSetFlags p rows charSize)).append <|
    (command (p.displayControl ||| displayOnFlags p)).append <|
    (command p.clearDisplay).append <| (wait 2000).append <|
    (command (p.entryModeSet ||| entryModeFlags p)).append <| (command p.returnHome).append (wait 2000)
  exact ⟨h.binds, h.writes, h.micros.trans (by simp)⟩

/-- Settles O37: the events of the completed run, and its `Done`, which adds nothing. -/
theorem initTotals : Obligations.InitTotals := by
  intro busId s h hp hacks
  obtain ⟨t, hexec, -, -, hacked, -⟩ := exec_init busId h hp
  obtain ⟨⟨-, -, -, htrace⟩, -⟩ := hacked hacks
  have hdone : Totals busId [.done .ok 0] 0 0 0 := ⟨rfl, rfl, rfl⟩
  obtain ⟨hbinds, hwrites, hmicros⟩ := (totals_initEvents s.par s.rows s.charSize busId s.addr).append hdone
  refine ⟨t, _, hexec, htrace.trans (List.append_assoc _ _ _), hwrites, hbinds, hmicros, fun hpower hsettle => ?_⟩
  rw [hmicros, hpower, hsettle]
  rfl

/-! ### What a successful INIT delivers -/

/-- On its own, a successful INIT shows its restart, its four single nibbles and its five bytes. -/
theorem latchObservation_initEvents {p : Params} (hp : p.WellFormed) (rows : Word) (charSize : CharSize)
    (busId addr : Byte) :
    latchObservation p ((initEvents p rows charSize busId).map (Want.acked addr))
      = [LatchRecord.restart, .latched ⟨false, 3⟩, .latched ⟨false, 3⟩, .latched ⟨false, 3⟩, .latched ⟨false, 2⟩]
        ++ (initBytes p rows charSize).flatMap byteRecords := by
  obtain ⟨ws, hws, hshows⟩ := shows_initEvents hp rows charSize busId
  have hstart : observe p ([Want.bind busId, .dly p.tPower, .wr 0x08, .dly p.tBlSettle].map (Want.acked addr))
      = ⟨.byte 0x08, [.restart]⟩ := rfl
  obtain ⟨hrest, hrec⟩ := hshows addr ⟨.byte 0x08, [.restart]⟩ (.inr ⟨_, rfl, (quiet_of_low_clear hp rfl).1⟩)
  rw [← hstart, ← observe_append, ← List.map_append, ← hws] at hrest hrec
  rw [hrest.latchObservation_eq, hrec, hstart]
  rfl

/-- After a restart and four single nibbles, whatever the reading before them, the bytes that follow are delivered
(20_memory.md R55, R66). -/
theorem deliveredBytes_init (start : Pairing) (bytes : List (Bool × Byte)) (a b c d : Latched) :
    deliveredBytes start
      ([LatchRecord.restart, .latched a, .latched b, .latched c, .latched d] ++ bytes.flatMap byteRecords) = bytes := by
  have hsingles :
      [LatchRecord.restart, .latched a, .latched b, .latched c, .latched d].foldl Delivery.after ⟨start, []⟩
        = ⟨.high, []⟩ := rfl
  rw [deliveredBytes, List.foldl_append, hsingles, foldl_byteRecords]
  rfl

/-- Settles O38: the records of INIT's own events, whose restart comes first. -/
theorem initDeliversCommandBytes : Obligations.InitDeliversCommandBytes := by
  intro busId s h hp hacks
  obtain ⟨t, hexec, -, -, hacked, -⟩ := exec_init busId h hp
  obtain ⟨⟨-, -, -, htrace⟩, -⟩ := hacked hacks
  have hobs := latchObservation_initEvents hp s.rows s.charSize busId s.addr
  rw [← latchObservation_done _ _ .ok 0] at hobs
  refine ⟨t, _, hexec, htrace.trans (List.append_assoc _ _ _), ?_, fun start => ?_⟩
  · rw [hobs]; rfl
  · rw [hobs, deliveredBytes_init]

/-- Settles O36: the run of O34 and the records of O38, with the default parameters put in. -/
theorem initDefaultTrace : Obligations.InitDefaultTrace := by
  intro s h hrows hfont hpar hacks
  have hp : s.par.WellFormed := by rw [hpar]; decide
  obtain ⟨-, t, hexec, hended, -, -, hbusId, hphase, hbl, hdf, hdc, hdm⟩ := initRunsWholeSequence 0x01 s h hp hacks
  obtain ⟨u, es, hexec', hobs⟩ := initDeliversCommandBytes 0x01 s h hp hacks
  obtain rfl : t = u := Host.Outcome.next.inj (hexec.symm.trans hexec')
  rw [hrows, hfont, hpar] at hended hobs
  rw [hpar] at hdc hdm ⊢
  rw [hrows, hfont, hpar] at hdf
  exact ⟨t, hexec, hended, hphase, hbl, hdf, hdc, hdm, hbusId, es, hobs⟩

end Sys2Proof.Proofs
end

section
/-! SUPPORT. The control family (41_control_ops.md): the frames of the operations that only transmit and of those that
switch a register (R120), and how each control operation completes (R121 to R127). -/

namespace Sys2Proof.Proofs

open Sys2Proof.Config (Params)
open Sys2Proof.Machine Sys2Proof.Safety Sys2Proof.Laws

/-! ### Frames, whatever the outcome -/

theorem sameRegisters_of_writable {s t : State} (hc : SameConfig s t) (hport : t.port = s.port)
    (hw : SameWritable s t) : SameRegisters s t := by
  obtain ⟨hdf, hdc, hdm, hbl, hphase, hbusId⟩ := hw
  exact ⟨hc, hdf, hdc, hdm, hbl, hphase, hbusId, hport⟩

theorem sameButDc_of_writable {s t : State} {v : Byte} (hc : SameConfig s t) (hport : t.port = s.port)
    (hw : SameWritable (s.setDc v) t) : SameButDc s t ∧ t.dc = v := by
  obtain ⟨hdf, hdc, hdm, hbl, hphase, hbusId⟩ := hw
  exact ⟨⟨hc, hdf, hdm, hbl, hphase, hbusId, hport⟩, hdc⟩

theorem sameButBl_of_writable {s t : State} {b : Bool} (hc : SameConfig s t) (hport : t.port = s.port)
    (hw : SameWritable (s.setBl b) t) : SameButBl s t ∧ t.bl = b := by
  obtain ⟨hdf, hdc, hdm, hbl, hphase, hbusId⟩ := hw
  exact ⟨⟨hc, hdf, hdc, hdm, hphase, hbusId, hport⟩, hbl⟩

/-- The operations that only transmit make no register write. -/
theorem switched_of_transmitting {i : Instr} (hon : i ≠ .display) (hoff : i ≠ .nodisplay) (hlit : i ≠ .backlight)
    (hdark : i ≠ .nobacklight) (s : State) : switched i s = s := by
  cases i with
  | display => exact absurd rfl hon
  | nodisplay => exact absurd rfl hoff
  | backlight => exact absurd rfl hlit
  | nobacklight => exact absurd rfl hdark
  | _ => rfl

/-- Settles O48: refused or admitted, no register is written. -/
theorem transmittingOperationsKeepRegisters : Obligations.TransmittingOperationsKeepRegisters := by
  intro i s t hi hon hoff hlit hdark h
  obtain ⟨hc, hport, -⟩ := exec_frame h
  have hw := exec_writable hi h
  rw [switched_of_transmitting hon hoff hlit hdark, or_self] at hw
  exact sameRegisters_of_writable hc hport hw

/-- An operation that switches `DC` leaves everything else: a refusal writes nothing, an admitted one writes `DC`. -/
theorem exec_sameButDc {i : Instr} {s t : State} {v : Byte} (hi : isInit i = false) (hsw : switched i s = s.setDc v)
    (h : exec i s = .next t) : SameButDc s t := by
  obtain ⟨hc, hport, -⟩ := exec_frame h
  obtain hw | hw := exec_writable hi h
  · exact (sameButDc_of_writable (v := s.dc) hc hport hw).1
  · exact (sameButDc_of_writable hc hport (hsw ▸ hw)).1

/-- An operation that switches `BL` leaves everything else: a refusal writes nothing, an admitted one writes `BL`. -/
theorem exec_sameButBl {i : Instr} {s t : State} {b : Bool} (hi : isInit i = false) (hsw : switched i s = s.setBl b)
    (h : exec i s = .next t) : SameButBl s t := by
  obtain ⟨hc, hport, -⟩ := exec_frame h
  obtain hw | hw := exec_writable hi h
  · exact (sameButBl_of_writable (b := s.bl) hc hport hw).1
  · exact (sameButBl_of_writable hc hport (hsw ▸ hw)).1

/-- Settles O49: two operations switch `DC`, two switch `BL`. -/
theorem switchingOperationsKeepOtherRegisters : Obligations.SwitchingOperationsKeepOtherRegisters := fun _ _ =>
  ⟨fun h => h.elim (exec_sameButDc rfl rfl) (exec_sameButDc rfl rfl),
    fun h => h.elim (exec_sameButBl rfl rfl) (exec_sameButBl rfl rfl)⟩

/-! ### A ready engine -/

/-- Acceptance changes no register. -/
theorem switched_accept (i : Instr) (s : State) : SameWritable (switched i s) (switched i s.accept) := by
  cases i <;> exact ⟨rfl, rfl, rfl, rfl, rfl, rfl⟩

/-- In a ready engine an operation other than INIT makes its one write, whatever the transport answers. -/
theorem exec_switched {i : Instr} {s t : State} (hi : isInit i = false) (hready : Ready s)
    (h : exec i s = .next t) : SameWritable (switched i s) t := by
  obtain ⟨-, ⟨-, hnot, -⟩ | ⟨-, st, v, rfl, -⟩⟩ := exec_next_cases h
  · exact absurd hready.2 hnot
  · exact sameWritable_trans (switched_accept i s)
      (sameWritable_trans (runOps_opsOf_writable hi s.accept) (complete_writable _ _ _))

/-- After an operation other than INIT a ready engine is ready again. -/
theorem exec_keeps_ready {i : Instr} {s t : State} (hi : isInit i = false) (hready : Ready s)
    (h : exec i s = .next t) : Ready t := by
  obtain ⟨⟨-, hrows⟩, hphase⟩ := hready
  obtain ⟨⟨-, -, hr, -⟩, -, hbusy⟩ := exec_frame h
  exact ⟨⟨hbusy, hr ▸ hrows⟩, (exec_keeps_phase hi h).1.trans hphase⟩

/-- An operation other than INIT and the prints completes as its event list says, its one write made in each case. -/
theorem transacts_of_ready {i : Instr} {s : State} {ws : List Want} {v : Byte} {same : State → State → Prop}
    (hready : Ready s) (hi : isInit i = false) (hab : absorbs i = false) (hw : wants s.bl (opsOf i s) = ws)
    (hsame : ∀ t, SameConfig s t → t.port = s.port → SameWritable (switched i s) t → same s t)
    (h1 : ∀ b, i = .data b → v = 1) (h0 : (∀ b, i ≠ .data b) → v = 0) : Transacts i s ws v same := by
  rw [← opsOf_accept] at hw
  obtain ⟨t, hexec, -, hends⟩ : Transacts i s ws v fun _ _ => True :=
    transacts_of_wants ⟨hready.1, .inr hready.2⟩ hab hw (fun _ _ _ _ => trivial) h1 h0
  obtain ⟨hc, hport, -⟩ := exec_frame hexec
  exact ⟨t, hexec, hsame t hc hport (exec_switched hi hready hexec), hends⟩

/-- An operation that makes no register write completes as its event list says, with every register kept. -/
theorem transacts_transmitting {i : Instr} {s : State} {v : Byte} (hready : Ready s) (hp : s.par.WellFormed)
    (hi : isInit i = false) (hab : absorbs i = false) (hkeep : switched i s = s)
    (h1 : ∀ b, i = .data b → v = 1) (h0 : (∀ b, i ≠ .data b) → v = 0) :
    Transacts i s (eventsOf i s) v SameRegisters :=
  transacts_of_ready hready hi hab (wants_opsOf hp hready.1.2)
    (fun _ hc hport hw => sameRegisters_of_writable hc hport (hkeep ▸ hw)) h1 h0

/-- Acknowledged, the wanted events on their own show exactly their records. -/
theorem Shows.latchObservation_eq {p : Params} {ws : List Want} {rs : List LatchRecord} (h : Shows p ws rs)
    (addr : Byte) : latchObservation p (ws.map (Want.acked addr)) = rs := by
  obtain ⟨hrest, hrec⟩ := h addr ⟨.unknown, []⟩ (.inl rfl)
  exact (Resting.latchObservation_eq hrest).trans hrec

/-- Acknowledged, the events of an operation other than INIT deliver exactly its bytes, from a high nibble on
(20_memory.md R66). -/
theorem exec_delivers {i : Instr} {s : State} (hready : Ready s) (hp : s.par.WellFormed) (hi : isInit i = false)
    (hacks : Acks s (questions (eventsOf i s))) :
    ∃ t es, exec i s = .next t ∧ t.trace = s.trace ++ es
      ∧ deliveredBytes .high (latchObservation s.par es) = bytesOf i s := by
  obtain ⟨t, hexec, htrace⟩ := execRefinesEventLists i s hp ⟨hready.1, .inr hready.2⟩
  refine ⟨t, _, hexec, htrace.trans (List.append_assoc _ _ _), ?_⟩
  rw [latchObservation_done, play_of_acks _ _ _ _ fun n hn => by rw [Nat.zero_add]; exact hacks n hn,
    (shows_eventsOf hp hi).latchObservation_eq, deliveredBytes, foldl_byteRecords]
  rfl

/-! ### CLEAR, HOME and SETCURSOR -/

/-- Settles O22: one command byte and a wait, no register write. -/
theorem clearSendsClearDisplayAndWaits : Obligations.ClearSendsClearDisplayAndWaits := fun _ hready hp =>
  ⟨rfl,
    transacts_transmitting (i := .clear) hready hp rfl rfl rfl nofun fun _ => rfl,
    exec_delivers (i := .clear) hready hp rfl⟩

/-- Settles O23: one command byte and a wait, no register write. -/
theorem homeSendsReturnHomeAndWaits : Obligations.HomeSendsReturnHomeAndWaits := fun _ hready hp =>
  ⟨rfl,
    transacts_transmitting (i := .home) hready hp rfl rfl rfl nofun fun _ => rfl,
    exec_delivers (i := .home) hready hp rfl⟩

/-- Settles O24: the machine's 9-bit address is the clamped one (`setCursorByte_eq`, in `wants_opsOf`). -/
theorem setCursorSendsClampedAddress : Obligations.SetCursorSendsClampedAddress := fun col row _ hready hp =>
  ⟨rfl, transacts_transmitting (i := .setcursor col row) hready hp rfl rfl rfl nofun fun _ => rfl⟩

/-- Beyond the last row the clamp gives the last row (41_control_ops.md R123); a row number fits its byte. -/
theorem clampRow_of_le {rows : Word} {row : Byte} (h : rows.toNat ≤ row.toNat) :
    clampRow rows row = clampRow rows (BitVec.ofNat 8 (rows.toNat - 1)) := by
  have hlast : (BitVec.ofNat 8 (rows.toNat - 1)).toNat = rows.toNat - 1 := by
    rw [BitVec.toNat_ofNat]
    exact Nat.mod_eq_of_lt (by omega)
  simp only [clampRow, hlast, Fin.mk.injEq]
  omega

/-- Admission looks at the body at the accepting state only. -/
theorem admission_congr {s : State} {body body' : State → State} (h : body s.accept = body' s.accept) (a : Bool) :
    admission a s body = admission a s body' := by
  simp only [admission, h]

/-- Settles O25: the two operations have the same clamped row, hence the same micro-operations. -/
theorem setCursorClampsToLastRow : Obligations.SetCursorClampsToLastRow := by
  intro col row s h
  have hops : setcursorOps col row s.accept = setcursorOps col (BitVec.ofNat 8 (s.rows.toNat - 1)) s.accept := by
    simp only [setcursorOps, setCursorByte, ddramAddress, accept_rows, clampRow_of_le h]
  rw [exec_eq_admission, exec_eq_admission]
  exact admission_congr (congrArg (fun ops => propagate 0 (runOps ops s.accept)) hops) _

/-! ### DISPLAY and NODISPLAY -/

/-- Settles O26: the write to `DC`, then one command byte. -/
theorem displaySetsDisplayOn : Obligations.DisplaySetsDisplayOn := fun _ hready hp =>
  ⟨rfl,
    transacts_of_ready hready rfl rfl (wants_opsOf hp hready.1.2) (fun _ => sameButDc_of_writable) nofun fun _ => rfl⟩

/-- Settles O27: the write to `DC`, then one command byte. -/
theorem noDisplayClearsDisplayOn : Obligations.NoDisplayClearsDisplayOn := fun _ hready hp =>
  ⟨rfl,
    transacts_of_ready hready rfl rfl (wants_opsOf hp hready.1.2) (fun _ => sameButDc_of_writable) nofun fun _ => rfl⟩

/-- Setting the `DISPLAY_ON` bit forgets whether it was cleared before. -/
theorem displayFlagsOn_off (p : Params) (dc : Byte) :
    displayFlagsOn p (displayFlagsOff p dc) = displayFlagsOn p dc := by
  ext k hk
  cases hbit : p.displayOn[k] <;> simp [displayFlagsOn, displayFlagsOff, hbit]

theorem displayFlagsOn_on (p : Params) (dc : Byte) : displayFlagsOn p (displayFlagsOn p dc) = displayFlagsOn p dc := by
  rw [displayFlagsOn, displayFlagsOn, BitVec.or_assoc, BitVec.or_self]

theorem displayFlagsOff_clear (p : Params) (dc : Byte) : displayFlagsOff p dc &&& p.displayOn = 0 := by
  ext k hk
  cases hbit : p.displayOn[k] <;> simp [displayFlagsOff, hbit]

theorem exec_switched_dc {i : Instr} {s t : State} (hi : isInit i = false) (hready : Ready s)
    (h : exec i s = .next t) : t.dc = (switched i s).dc := by
  obtain ⟨-, hdc, -⟩ := exec_switched hi hready h
  exact hdc

/-- Settles O28: each of the three operations makes its one write to `DC`, in an engine that stays ready. -/
theorem displayRoundTrip : Obligations.DisplayRoundTrip := by
  intro s t u v hs hst htu huv
  have ht : Ready t := exec_keeps_ready rfl hs hst
  have hu : Ready u := exec_keeps_ready rfl ht htu
  obtain ⟨⟨-, -, -, -, hpar⟩, -⟩ := exec_frame hst
  obtain ⟨⟨-, -, -, -, hpar'⟩, -⟩ := exec_frame htu
  have htdc : t.dc = displayFlagsOn s.par s.dc := exec_switched_dc rfl hs hst
  have hudc : u.dc = displayFlagsOff s.par t.dc := hpar ▸ exec_switched_dc rfl ht htu
  have hvdc : v.dc = displayFlagsOn s.par u.dc := hpar ▸ hpar' ▸ exec_switched_dc rfl hu huv
  refine ⟨?_, hudc ▸ displayFlagsOff_clear s.par t.dc⟩
  rw [hvdc, hudc, displayFlagsOn_off, htdc, displayFlagsOn_on]

/-! ### BACKLIGHT and NOBACKLIGHT -/

/-- Settles O29: the write to `BL`, then the one bus write; bit 3 is no enable bit. -/
theorem backlightSwitchesOn : Obligations.BacklightSwitchesOn := fun _ hready =>
  ⟨rfl,
    transacts_of_ready hready rfl rfl rfl (fun _ => sameButBl_of_writable) nofun fun _ => rfl,
    fun hp => (quiet_of_low_clear hp rfl).1⟩

/-- Settles O30: the write to `BL`, then the one bus write. -/
theorem noBacklightSwitchesOff : Obligations.NoBacklightSwitchesOff := fun _ hready =>
  ⟨rfl, transacts_of_ready hready rfl rfl rfl (fun _ => sameButBl_of_writable) nofun fun _ => rfl⟩

end Sys2Proof.Proofs
end

section
/-! SUPPORT. The text family (42_text_ops.md): what PRINTS and PRINTN send and count (R140, R141), the digits of the
decimal text (R142), and the bound on the bus writes of every operation (R143). -/

namespace Sys2Proof.Proofs

open Sys2Proof.Config (Answer Params)
open Sys2Proof.Machine Sys2Proof.Safety Sys2Proof.Laws

/-! ### PRINTS -/

/-- In a ready engine PRINTS ends `OK` whatever the transport answers, with the events of its text up to the first
failed one; its count is the record's of `Record.prints` (42_text_ops.md R140). -/
theorem exec_prints_completes (text : List Byte) {s : State} (hready : Ready s) (hp : s.par.WellFormed) :
    ∃ t n, exec (.prints text) s = .next t ∧ SameRegisters s t
      ∧ Ended s t (play s.addr s.answerAt 0 (text.flatMap (dataEvents s.par s.bl))) .ok (BitVec.ofNat 8 n)
      ∧ (Acks s (6 * text.length) → n = text.length) ∧ ∀ j, j < 6 * text.length → FailsAt s j → n = j / 6 := by
  have ha : Admitted (.prints text) s := ⟨hready.1, .inr hready.2⟩
  obtain ⟨st, v, hexec, hrec⟩ := exec_of_admitted ha
  obtain ⟨t, hexec', htrace⟩ := execRefinesEventLists _ s hp ha
  obtain rfl := Host.Outcome.next.inj (hexec.symm.trans hexec')
  obtain rfl : st = .ok := hrec.absorbed rfl
  obtain ⟨n, rfl, hacks, hfails⟩ := hrec.prints text rfl
  have hsame : SameRegisters s _ :=
    transmittingOperationsKeepRegisters (.prints text) s _ rfl nofun nofun nofun nofun hexec
  exact ⟨_, n, hexec, hsame, ⟨rfl, rfl, rfl, htrace⟩, hacks, hfails⟩

theorem questions_flatMap_dataEvents {p : Params} (hp : p.WellFormed) (bl : Bool) (text : List Byte) :
    questions (text.flatMap (dataEvents p bl)) = 6 * text.length := by
  rw [← wants_flatMap_sendData hp, questions_wants, asksOf_flatMap_sendData]

/-- The completion of PRINTS: acknowledged, or stopped at its first failed write (42_text_ops.md R140). -/
theorem exec_prints_counts (text : List Byte) {s : State} (hready : Ready s) (hp : s.par.WellFormed) :
    ∃ t, exec (.prints text) s = .next t ∧ SameRegisters s t
      ∧ (Acks s (6 * text.length) →
          EndedWith s t (text.flatMap (dataEvents s.par s.bl)) (BitVec.ofNat 8 text.length))
      ∧ ∀ j, j < 6 * text.length → FailsAt s j →
          Ended s t (play s.addr s.answerAt 0 (text.flatMap (dataEvents s.par s.bl))) .ok (BitVec.ofNat 8 (j / 6)) := by
  obtain ⟨t, n, hexec, hsame, hended, hacks, hfails⟩ := exec_prints_completes text hready hp
  refine ⟨t, hexec, hsame, fun h => ?_, fun j hj hf => hfails j hj hf ▸ hended⟩
  have hall : play s.addr s.answerAt 0 (text.flatMap (dataEvents s.par s.bl))
      = (text.flatMap (dataEvents s.par s.bl)).map (Want.acked s.addr) :=
    play_of_acks _ _ _ _ fun k hk => by
      rw [questions_flatMap_dataEvents hp] at hk
      rw [Nat.zero_add]
      exact h k hk
  rwa [hall, hacks h] at hended

/-- Settles O31: the packet is the encoder's, and the completion that of the print loop. -/
theorem printsCountsCompletedBytes : Obligations.PrintsCountsCompletedBytes := fun text _ hlen hready hp =>
  ⟨(congrArg decode (List.append_nil _)).symm.trans (decodeReadsEncodedPacket (.prints text) [] (decide_eq_true hlen)),
    exec_prints_counts text hready hp⟩

/-! ### The decimal text -/

/-- A number's digits, most significant last, are its quotients by the powers of ten modulo ten. -/
theorem digits_eq_map_range (m : Nat) :
    Nat.digits 10 m = (List.range (Nat.digits 10 m).length).map fun j => m / 10 ^ j % 10 := by
  refine List.ext_getElem (by simp) fun j hj _ => ?_
  rw [List.getElem_map, List.getElem_range, ← Nat.getD_digits m j (by norm_num), List.getD_eq_getElem _ _ hj]

/-- How many decimal digits the text of `m` has: one for zero (42_text_ops.md R142). -/
def digitCount (m : Nat) : Nat := if m = 0 then 1 else (Nat.digits 10 m).length

theorem digitCount_pos (m : Nat) : 1 ≤ digitCount m := by
  rw [digitCount]
  split
  · exact le_rfl
  · exact List.length_pos_iff.mpr (Nat.digits_ne_nil_iff_ne_zero.mpr ‹_›)

theorem digitCount_le_iff {m k : Nat} (hk : 1 ≤ k) : digitCount m ≤ k ↔ m < 10 ^ k := by
  rw [digitCount]
  split
  · simp [*]
  · exact Nat.digits_length_le_iff (by norm_num) m

theorem pow_pred_digitCount_le {m : Nat} (hne : m ≠ 0) : 10 ^ (digitCount m - 1) ≤ m := by
  have hpos := digitCount_pos m
  rw [← Nat.lt_digits_length_iff (by norm_num)]
  rw [digitCount, if_neg hne] at hpos ⊢
  omega

/-- The digit list of `decimalChars`, place by place. -/
theorem digitList_eq (m : Nat) :
    (if m = 0 then [0] else (Nat.digits 10 m).reverse)
      = ((List.range (digitCount m)).map fun j => m / 10 ^ j % 10).reverse := by
  rw [digitCount]
  split
  case isTrue h => subst h; rfl
  case isFalse h => rw [← digits_eq_map_range]

/-- The decimal text, place by place (42_text_ops.md R142). -/
theorem decimalChars_eq (n : Word) :
    decimalChars n = (if n.toInt < 0 then [0x2D] else [])
      ++ ((List.range (digitCount n.toInt.natAbs)).map fun j =>
          0x30 + BitVec.ofNat 8 (n.toInt.natAbs / 10 ^ j % 10)).reverse := by
  have hdigits := digitList_eq n.toInt.natAbs
  simp only [Int.natAbs_eq_zero] at hdigits
  rw [decimalChars, hdigits, List.map_reverse, List.map_map]
  rfl

/-- Settles O33: with as many places as the number has digits. -/
theorem decimalTextDigits : Obligations.DecimalTextDigits := by
  intro n
  have hpos := digitCount_pos n.toInt.natAbs
  refine ⟨digitCount n.toInt.natAbs, hpos, (digitCount_le_iff hpos).mp le_rfl, pow_pred_digitCount_le, fun h0 => ?_,
    (decimalText_eq n).trans (decimalChars_eq n)⟩
  rw [h0]
  rfl

theorem decimalChars_length (n : Word) :
    (decimalChars n).length = (if n.toInt < 0 then 1 else 0) + digitCount n.toInt.natAbs := by
  rw [decimalChars_eq, List.length_append, List.length_reverse, List.length_map, List.length_range,
    apply_ite List.length]
  rfl

/-- At most a sign and ten digits (42_text_ops.md R142). -/
theorem decimalChars_length_bounds (n : Word) : 1 ≤ (decimalChars n).length ∧ (decimalChars n).length ≤ 11 := by
  have hpos := digitCount_pos n.toInt.natAbs
  have hten : digitCount n.toInt.natAbs ≤ 10 := by
    have hhigh := BitVec.toInt_lt (x := n)
    have hlow := BitVec.le_toInt (x := n)
    refine (digitCount_le_iff (by norm_num)).mpr ?_
    norm_num at hhigh hlow ⊢
    omega
  rw [decimalChars_length]
  split <;> omega

/-! ### PRINTN -/

/-- PRINTN delegates to PRINTS (42_text_ops.md R141). -/
theorem exec_printn (n : Word) (s : State) : exec (.printn n) s = exec (.prints (decimalChars n)) s :=
  congrArg (fun text => printText text s) (decimalText_eq n)

/-- Settles O32: the operand's packet, and PRINTS of its text. -/
theorem printnPrintsDecimalText : Obligations.PrintnPrintsDecimalText := by
  intro n s hready hp
  obtain ⟨hone, heleven⟩ := decimalChars_length_bounds n
  refine ⟨decodeI_append n [], hone, heleven, exec_printn n s, ?_⟩
  rw [exec_printn]
  exact exec_prints_counts (decimalChars n) hready hp

/-! ### The bound on the bus writes -/

/-- Every write that happens is one of the questions asked. -/
theorem play_writes_le_questions (addr : Byte) (ans : Nat → Answer) (k : Nat) (ws : List Want) :
    ((play addr ans k ws).filter Event.isWrite).length ≤ questions ws := by
  induction ws generalizing k with
  | nil => exact le_rfl
  | cons w ws ih =>
    rw [questions_cons, Nat.add_comm]
    cases w with
    | dly n => exact ih k
    | bind id =>
      simp only [play]
      cases ans k with
      | ok => exact Nat.le_succ_of_le (ih (k + 1))
      | busError => exact Nat.zero_le _
    | wr v =>
      simp only [play]
      cases ans k with
      | ok => exact Nat.succ_le_succ (ih (k + 1))
      | busError => exact Nat.le_add_left 1 _

/-- Refused or admitted, an operation makes no more bus writes than its micro-operations ask questions. -/
theorem exec_writes_le_asks {i : Instr} {s t : State} (h : exec i s = .next t) :
    ∃ es, t.trace = s.trace ++ es ∧ (es.filter Event.isWrite).length ≤ asksOf (opsOf i s) := by
  obtain ⟨-, ⟨-, -, rfl⟩ | ⟨-, st, v, rfl, -⟩⟩ := exec_next_cases h
  · exact ⟨[.done .refused 0], rfl, Nat.zero_le _⟩
  · obtain ⟨htrace, -, -⟩ := runOps_events (opsOf i s.accept) s.accept
    refine ⟨_, by rw [complete_trace, htrace, List.append_assoc]; rfl, ?_⟩
    rw [List.filter_append, List.length_append, ← opsOf_accept, ← questions_wants s.bl]
    exact play_writes_le_questions _ _ _ _

/-- PRINTS of 255 bytes, six writes each, asks most (42_text_ops.md R143). -/
theorem asksOf_opsOf_le {i : Instr} (hwf : i.wf = true) (s : State) : asksOf (opsOf i s) ≤ 1530 := by
  cases i with
  | prints text =>
    have hlen : text.length ≤ 255 := of_decide_eq_true hwf
    rw [opsOf, asksOf_flatMap_sendData]
    omega
  | printn n =>
    have hlen := (decimalChars_length_bounds n).2
    rw [opsOf, decimalText_eq, asksOf_flatMap_sendData]
    omega
  | init busId => exact le_of_eq_of_le (b := 44) rfl (by norm_num)
  | clear | home | setcursor _ _ | display | nodisplay | cmd _ | data _ =>
    exact le_of_eq_of_le (b := 6) rfl (by norm_num)
  | backlight | nobacklight => exact le_of_eq_of_le (b := 1) rfl (by norm_num)

/-- Settles O45: at rest every operation answers, and its writes are bounded by the questions of its list. -/
theorem everyOperationEnds : Obligations.EveryOperationEnds := by
  intro i s hwf hidle
  obtain ⟨t, hexec⟩ := exec_next_of_idle i hidle
  obtain ⟨es, htrace, hle⟩ := exec_writes_le_asks hexec
  exact ⟨t, es, hexec, htrace, hle.trans (asksOf_opsOf_le hwf s)⟩

end Sys2Proof.Proofs
end

section
/-! SUPPORT. The nibble sequencer's family (43_nibble_transport.md): how CMD and DATA complete and what they deliver
(R153 to R155), the backlight bit of every bus byte (R156, R158), and the pulse of the enable bit (R157). -/

namespace Sys2Proof.Proofs

open Sys2Proof.Config (Answer Params CharSize)
open Sys2Proof.Machine Sys2Proof.Safety Sys2Proof.Laws

/-! ### CMD and DATA -/

/-- A command byte's bus bytes: its mode sets no bit (43_nibble_transport.md R154). -/
theorem commandEvents_eq_pairEvents (p : Params) (bl : Bool) (b : Byte) :
    commandEvents p bl b
      = pairEvents p ((b &&& 0xF0) ||| backlightBit bl) (((b <<< 4) &&& 0xF0) ||| backlightBit bl) := by
  simp [commandEvents, byteEvents]

/-- Settles O13: one command byte, no register write. -/
theorem cmdDispatchesCommandByte : Obligations.CmdDispatchesCommandByte := by
  intro b s hready hp
  rw [← commandEvents_eq_pairEvents]
  exact ⟨rfl, transacts_transmitting (i := .cmd b) hready hp rfl rfl rfl nofun fun _ => rfl⟩

/-- Settles O14: one data byte, no register write, and DATA's own value. -/
theorem dataDispatchesDataByte : Obligations.DataDispatchesDataByte := fun b _ hready hp =>
  ⟨rfl, transacts_transmitting (i := .data b) hready hp rfl rfl rfl (fun _ _ => rfl) fun h => absurd rfl (h b)⟩

/-- Settles O15: each of the three operations is asked as many questions as its bytes have writes. -/
theorem acknowledgedBytesAreDelivered : Obligations.AcknowledgedBytesAreDelivered := fun s hready hp =>
  ⟨fun b => exec_delivers (i := .cmd b) hready hp rfl, fun b => exec_delivers (i := .data b) hready hp rfl,
    fun text hacks => exec_delivers (i := .prints text) hready hp rfl
      ((questions_flatMap_dataEvents hp s.bl text).symm ▸ hacks)⟩

/-! ### The events of an operation, refused or admitted -/

/-- An admitted operation plays the events that its rule lists and adds its `Done`, and its record is that of a run
which fails exactly if one of those events did. -/
theorem exec_admitted_plays {i : Instr} {s t : State} (hp : s.par.WellFormed) (ha : Admitted i s)
    (h : exec i s = .next t) :
    t.trace = s.trace ++ play s.addr s.answerAt 0 (eventsOf i s) ++ [.done t.status t.value]
    ∧ ∃ r, Record i s.accept r t.status t.value
        ∧ r.failed = (play s.addr s.answerAt 0 (eventsOf i s)).any Event.isFailed := by
  obtain ⟨u, hu, htrace⟩ := execRefinesEventLists i s hp ha
  obtain ⟨st, v, hexec, hrec⟩ := exec_of_admitted ha
  obtain rfl := Host.Outcome.next.inj (h.symm.trans hu)
  obtain rfl := Host.Outcome.next.inj (hexec.symm.trans h)
  refine ⟨htrace, _, hrec, ?_⟩
  rw [runOps_failed_iff, wants_opsOf (s := s.accept) hp ha.1.2, eventsOf_accept]
  rfl

/-- Whatever an operation answers, its trace grows by the events of its rule, or by none if it is refused, and by its
`Done`. -/
theorem exec_plays_eventsOf {i : Instr} {s t : State} (hp : s.par.WellFormed) (h : exec i s = .next t) :
    ∃ ws, (ws = [] ∨ Admitted i s ∧ ws = eventsOf i s)
      ∧ t.trace = s.trace ++ play s.addr s.answerAt 0 ws ++ [.done t.status t.value] := by
  obtain ⟨-, ⟨-, -, rfl⟩ | ⟨ha, -⟩⟩ := exec_next_cases h
  · exact ⟨[], .inl rfl, by rw [play, List.append_nil]; rfl⟩
  · exact ⟨_, .inr ⟨ha, rfl⟩, (exec_admitted_plays hp ha h).1⟩

/-- A write that happens was wanted, and goes to the engine's address. -/
theorem mem_play_wr {addr a v : Byte} {ans : Nat → Answer} {k : Nat} {ws : List Want} {x : Answer}
    (h : Event.wr a v x ∈ play addr ans k ws) : a = addr ∧ .wr v ∈ ws := by
  induction ws generalizing k with
  | nil => cases h
  | cons w ws ih =>
    have later {k' : Nat} (h : Event.wr a v x ∈ play addr ans k' ws) : a = addr ∧ .wr v ∈ w :: ws :=
      (ih h).imp_right (List.mem_cons_of_mem w)
    cases w with
    | dly n => exact later (by simpa [play] using h)
    | bind id =>
      cases hk : ans k with
      | ok => exact later (by simpa [play, hk] using h)
      | busError => simp [play, hk] at h
    | wr u =>
      cases hk : ans k with
      | ok =>
        simp only [play, hk, List.mem_cons, Event.wr.injEq] at h
        obtain ⟨rfl, rfl, -⟩ | h := h
        · exact ⟨rfl, List.mem_cons_self⟩
        · exact later h
      | busError =>
        simp only [play, hk, List.mem_singleton, Event.wr.injEq] at h
        obtain ⟨rfl, rfl, -⟩ := h
        exact ⟨rfl, List.mem_cons_self⟩

/-- The event lists built of waits, the bind, zero-payload writes and nibbles, every bus byte composed with the same
backlight bit (43_nibble_transport.md R150, R152). -/
inductive Composed (p : Params) (bl : Bool) : List Want → Prop where
  | nil : Composed p bl []
  | dly (n : Micros) : Composed p bl [.dly n]
  | bind (id : Byte) : Composed p bl [.bind id]
  | zero : Composed p bl [.wr (backlightBit bl)]
  | nibble {x mode : Byte} (hx : x &&& 0x0F = 0) (hm : Mode p mode) :
      Composed p bl (nibbleEvents p (x ||| mode ||| backlightBit bl))
  | append {ws vs : List Want} (hw : Composed p bl ws) (hv : Composed p bl vs) : Composed p bl (ws ++ vs)

theorem composed_flatten {p : Params} {bl : Bool} {lists : List (List Want)} (h : ∀ ws ∈ lists, Composed p bl ws) :
    Composed p bl lists.flatten := by
  induction lists with
  | nil => exact .nil
  | cons ws lists ih =>
    exact (h ws List.mem_cons_self).append (ih fun vs hvs => h vs (List.mem_cons_of_mem ws hvs))

theorem composed_byte {p : Params} {mode : Byte} (hm : Mode p mode) (bl : Bool) (b : Byte) :
    Composed p bl (byteEvents p bl mode b) :=
  (Composed.nibble (highNibble_low b) hm).append (.nibble (lowNibble_low b) hm)

theorem composed_command (p : Params) (bl : Bool) (b : Byte) : Composed p bl (commandEvents p bl b) :=
  composed_byte (.inl rfl) bl b

theorem composed_text (p : Params) (bl : Bool) (text : List Byte) :
    Composed p bl (text.flatMap (dataEvents p bl)) := by
  refine composed_flatten fun ws hws => ?_
  obtain ⟨b, -, rfl⟩ := List.mem_map.mp hws
  exact composed_byte (.inr rfl) bl b

/-- INIT asserts the backlight before its first write (40_init_sequencer.md R103). -/
theorem composed_init (p : Params) (rows : Word) (charSize : CharSize) (busId : Byte) :
    Composed p true (initEvents p rows charSize busId) := by
  have start : Composed p true [.bind busId, .dly p.tPower, .wr 0x08, .dly p.tBlSettle] :=
    (Composed.bind busId).append ((Composed.dly _).append (Composed.zero.append (.dly _)))
  have idle : Composed p true (nibbleEvents p 0x38) := Composed.nibble (x := 0x30) (mode := 0x00) rfl (.inl rfl)
  have latch : Composed p true (nibbleEvents p 0x28) := Composed.nibble (x := 0x20) (mode := 0x00) rfl (.inl rfl)
  refine composed_flatten ?_
  simp only [List.forall_mem_cons, Composed.dly, composed_command, idle, latch, start, List.not_mem_nil,
    false_imp_iff, implies_true, and_self]

/-- `BL` at every write of an operation: what INIT asserts, or what the operation's one register write leaves. -/
def carriedBl (i : Instr) (s : State) : Bool := isInit i || (switched i s).bl

/-- The events of every operation. -/
theorem composed_eventsOf (i : Instr) (s : State) : Composed s.par (carriedBl i s) (eventsOf i s) := by
  cases i with
  | init busId => exact composed_init s.par s.rows s.charSize busId
  | clear => exact (composed_command s.par s.bl _).append (.dly _)
  | home => exact (composed_command s.par s.bl _).append (.dly _)
  | setcursor col row => exact composed_command s.par s.bl _
  | display => exact composed_command s.par s.bl _
  | nodisplay => exact composed_command s.par s.bl _
  | backlight => exact .zero
  | nobacklight => exact .zero
  | prints text => exact composed_text s.par s.bl text
  | printn n => exact composed_text s.par s.bl (decimalChars n)
  | cmd b => exact composed_command s.par s.bl b
  | data b => exact composed_byte (.inr rfl) s.bl b

/-! ### The enable bit -/

/-- However the transport answers, these wanted events keep the pulse discipline, whatever came before them, if the
events after them do (43_nibble_transport.md R157). -/
def Pulsed (p : Params) (ws : List Want) : Prop :=
  ∀ addr ans vs, (∀ k prev, pulsesOk p addr prev (play addr ans k vs) = true) →
    ∀ k prev, pulsesOk p addr prev (play addr ans k (ws ++ vs)) = true

/-- The pulse discipline of events on their own. -/
theorem Pulsed.alone {p : Params} {ws : List Want} (h : Pulsed p ws) (addr : Byte) (ans : Nat → Answer) (k : Nat)
    (prev : Option Event) : pulsesOk p addr prev (play addr ans k ws) = true := by
  rw [← List.append_nil ws]
  exact h addr ans [] (fun _ _ => rfl) k prev

/-- A byte without the enable bit may stand anywhere. -/
theorem pulsesOk_wr_quiet {p : Params} {v : Byte} (hv : enableLine p v = false) (addr a : Byte) (prev : Option Event)
    (x : Answer) (es : List Event) :
    pulsesOk p addr prev (.wr a v x :: es) = pulsesOk p addr (some (.wr a v x)) es := by
  simp [pulsesOk, hv]

theorem pulsed_bind (p : Params) (id : Byte) : Pulsed p [.bind id] := by
  intro addr ans vs hvs k prev
  simp only [List.cons_append, List.nil_append, play]
  cases ans k with
  | ok => exact hvs (k + 1) _
  | busError => rfl

theorem pulsed_wr {p : Params} {v : Byte} (hv : enableLine p v = false) : Pulsed p [.wr v] := by
  intro addr ans vs hvs k prev
  simp only [List.cons_append, List.nil_append, play]
  cases ans k with
  | ok => rw [pulsesOk_wr_quiet hv]; exact hvs (k + 1) _
  | busError => rw [pulsesOk_wr_quiet hv]; rfl

/-- The byte of a pulse without its enable bit is the byte before the pulse. -/
theorem or_enMask_and_not {p : Params} {v : Byte} (hv : enableLine p v = false) :
    (v ||| p.enMask) &&& ~~~p.enMask = v := by
  have hclear : v &&& p.enMask = 0 := by simpa [enableLine] using hv
  apply BitVec.eq_of_getLsbD_eq
  intro k hk
  have hbit : (v.getLsbD k && p.enMask.getLsbD k) = false := by rw [← BitVec.getLsbD_and, hclear]; simp
  cases hm : p.enMask.getLsbD k <;> simp_all

/-- A nibble, whole or cut at any of its three writes: the enable bit is set in the middle one only. -/
theorem pulsed_nibble {p : Params} (hp : p.WellFormed) {v : Byte} (hv : enableLine p v = false) :
    Pulsed p (nibbleEvents p v) := by
  intro addr ans vs hvs k prev
  have hup := enableLine_or_enMask hp v
  have hdown := or_enMask_and_not hv
  simp only [nibbleEvents, List.cons_append, List.nil_append, play]
  cases ans k with
  | busError => rw [pulsesOk_wr_quiet hv]; rfl
  | ok =>
    rw [pulsesOk_wr_quiet hv]
    cases ans (k + 1) with
    | busError => simp [pulsesOk, hup, hdown]
    | ok => cases ans (k + 1 + 1) <;> simp [pulsesOk, hup, hdown, hv, hvs]

/-- Bus bytes composed with a backlight bit set the enable bit in nibbles only. -/
theorem Composed.pulsed {p : Params} (hp : p.WellFormed) {bl : Bool} {ws : List Want} (h : Composed p bl ws) :
    Pulsed p ws := by
  induction h with
  | nil => exact fun _ _ _ hvs => hvs
  | dly n => exact fun _ _ _ hvs k _ => hvs k _
  | bind id => exact pulsed_bind p id
  | zero => exact pulsed_wr (quiet_backlightBit hp bl).1
  | nibble hx hm => exact pulsed_nibble hp (quiet_composed hp hx hm bl).1
  | append _ _ hw hv =>
    intro addr ans us hus
    rw [List.append_assoc]
    exact hw addr ans _ (hv addr ans us hus)

/-- The bytes of the backlight operations carry no control line. -/
theorem quiet_of_backlight_wr {i : Instr} {s : State} (hp : s.par.WellFormed) (hi : i = .backlight ∨ i = .nobacklight)
    {v : Byte} (hv : .wr v ∈ eventsOf i s) : Quiet s.par v := by
  obtain rfl | rfl := hi <;>
    obtain rfl := Want.wr.inj (List.mem_singleton.mp hv) <;>
    exact quiet_of_low_clear hp rfl

/-- Settles O19: the events of each operation keep the pulse discipline wherever they are cut. -/
theorem enableBitOnlyInPulses : Obligations.EnableBitOnlyInPulses := by
  intro i s t hp h
  obtain ⟨ws, rfl | ⟨-, rfl⟩, htrace⟩ := exec_plays_eventsOf hp h
  · exact ⟨_, htrace, rfl, fun _ _ _ _ => nofun⟩
  · exact ⟨_, htrace, ((composed_eventsOf i s).pulsed hp).alone s.addr s.answerAt 0 none,
      fun hi _ _ _ hmem => (quiet_of_backlight_wr hp hi (mem_play_wr hmem).2).1⟩

/-! ### The backlight bit -/

theorem backlightLine_or (u v : Byte) : backlightLine (u ||| v) = (backlightLine u || backlightLine v) :=
  BitVec.getLsbD_or

/-- A byte of nibble lines alone carries no backlight bit. -/
theorem backlightLine_of_nibble {x : Byte} (hx : x &&& 0x0F = 0) : backlightLine x = false := by
  have h : backlightLine (x &&& 0x0F) = false := by rw [hx]; rfl
  simpa [backlightLine] using h

/-- The control lines are not the backlight line (30_encoding.md R71). -/
theorem backlightLine_singleLine {m : Byte} (hm : Config.SingleLine m) : backlightLine m = false := by
  obtain rfl | rfl | rfl := hm <;> rfl

theorem singleLine_enMask {p : Params} (hp : p.WellFormed) : Config.SingleLine p.enMask := by
  obtain ⟨⟨he, -⟩, -⟩ := hp
  exact he

theorem singleLine_rsMask {p : Params} (hp : p.WellFormed) : Config.SingleLine p.rsMask := by
  obtain ⟨⟨-, hr, -⟩, -⟩ := hp
  exact hr

theorem backlightLine_mode {p : Params} (hp : p.WellFormed) {mode : Byte} (hm : Mode p mode) :
    backlightLine mode = false := by
  obtain rfl | rfl := hm
  · rfl
  · exact backlightLine_singleLine (singleLine_rsMask hp)

theorem backlightLine_backlightBit (bl : Bool) : backlightLine (backlightBit bl) = bl := by
  cases bl <;> rfl

/-- The composed byte of a nibble carries the backlight bit it was composed with (43_nibble_transport.md R156). -/
theorem backlightLine_composed {p : Params} (hp : p.WellFormed) {x mode : Byte} (hx : x &&& 0x0F = 0)
    (hm : Mode p mode) (bl : Bool) : backlightLine (x ||| mode ||| backlightBit bl) = bl := by
  rw [backlightLine_or, backlightLine_or, backlightLine_of_nibble hx, backlightLine_mode hp hm,
    backlightLine_backlightBit]
  rfl

/-- Every bus byte carries the backlight bit it was composed with. -/
theorem Composed.backlightLine_eq {p : Params} (hp : p.WellFormed) {bl : Bool} {ws : List Want}
    (h : Composed p bl ws) {v : Byte} (hv : .wr v ∈ ws) : backlightLine v = bl := by
  induction h with
  | nil | dly _ | bind _ => simp at hv
  | zero =>
    obtain rfl := Want.wr.inj (List.mem_singleton.mp hv)
    exact backlightLine_backlightBit bl
  | @nibble x mode hx hm =>
    have hquiet := backlightLine_composed hp hx hm bl
    have hpulse : backlightLine (x ||| mode ||| backlightBit bl ||| p.enMask) = bl := by
      rw [backlightLine_or, hquiet, backlightLine_singleLine (singleLine_enMask hp), Bool.or_false]
    simp only [nibbleEvents, List.mem_cons, Want.wr.injEq, reduceCtorEq, List.not_mem_nil, or_false, false_or] at hv
    obtain rfl | rfl | rfl := hv
    exacts [hquiet, hpulse, hquiet]
  | append _ _ hw hv' => exact (List.mem_append.mp hv).elim hw hv'

/-- INIT ends with the backlight on, unless its bind failed (40_init_sequencer.md R103, R112). -/
theorem exec_init_bl {busId : Byte} {s t : State} (hp : s.par.WellFormed) (h : exec (.init busId) s = .next t) :
    t.bl = true ∨ s.answerAt 0 = .busError := by
  obtain ⟨hidle, -⟩ := exec_next_cases h
  obtain ⟨u, hu, -, -, hacked, hfailed⟩ := exec_init busId hidle hp
  obtain rfl := Host.Outcome.next.inj (h.symm.trans hu)
  obtain hacks | ⟨j, hj, hf⟩ := acks_or_failsAt s 44
  · obtain ⟨-, -, -, -, hbl, -⟩ := hacked hacks
    exact .inl hbl
  · obtain ⟨-, -, -, -, hbl, -⟩ := hfailed j hj hf
    obtain ⟨-, -, -, gbl, -⟩ := regWrites_initWrites busId s hj
    cases j with
    | zero => exact .inr hf.2
    | succ j => exact .inl (hbl.trans (by simpa using gbl))

/-- An admitted operation that has written to the bus ends with the `BL` its bytes carry: no operation changes `BL`
after its first write. -/
theorem exec_carriedBl {i : Instr} {s t : State} (hp : s.par.WellFormed) (ha : Admitted i s)
    (h : exec i s = .next t) {a v : Byte} {x : Answer}
    (hwr : Event.wr a v x ∈ play s.addr s.answerAt 0 (eventsOf i s)) : t.bl = carriedBl i s := by
  cases hi : isInit i with
  | false =>
    obtain ⟨-, -, -, hbl, -⟩ := exec_switched hi ⟨ha.1, ha.2.resolve_left (by simp [hi])⟩ h
    rw [hbl, carriedBl, hi, Bool.false_or]
  | true =>
    cases i with
    | init busId =>
      obtain hbl | hbad := exec_init_bl hp h
      · exact hbl
      · simp [eventsOf, initEvents, play, hbad] at hwr
    | _ => cases hi

/-- Settles O18: each byte was composed with the `BL` of the operation's end. -/
theorem busBytesCarryBacklight : Obligations.BusBytesCarryBacklight := by
  intro i s t hp h
  obtain ⟨ws, hws, htrace⟩ := exec_plays_eventsOf hp h
  refine ⟨_, htrace.trans (List.append_assoc _ _ _),
    List.forall_mem_append.mpr ⟨fun e he => ?_, List.forall_mem_singleton.mpr rfl⟩⟩
  obtain rfl | ⟨ha, rfl⟩ := hws
  · cases he
  · cases e with
    | wr a v x =>
      obtain ⟨rfl, hv⟩ := mem_play_wr he
      simp [Event.busByteOk, (disciplined_eventsOf hp i).access v hv, exec_carriedBl hp ha h he,
        (composed_eventsOf i s).backlightLine_eq hp hv]
    | bind _ _ | dly _ | done _ _ => rfl

/-! ### The flip of the backlight bit -/

/-- The flip of the backlight bit in a bus byte: what `Event.flipBacklight` does to the byte of a write. -/
def flipByte (v : Byte) : Byte := v ^^^ 0x08

theorem flipBacklight_wr (a v : Byte) (x : Answer) : Event.flipBacklight (.wr a v x) = .wr a (flipByte v) x := rfl

/-- The flip in a wanted event: `Event.flipBacklight` before the answer. -/
def flipWant : Want → Want
  | .wr v => .wr (flipByte v)
  | .bind id => .bind id
  | .dly n => .dly n

/-- Flipped wanted events happen, under the same answers, as the flipped events. -/
theorem play_map_flipWant (addr : Byte) (ans : Nat → Answer) (k : Nat) (ws : List Want) :
    play addr ans k (ws.map flipWant) = (play addr ans k ws).map Event.flipBacklight := by
  induction ws generalizing k with
  | nil => rfl
  | cons w ws ih =>
    cases w with
    | dly n => exact congrArg (Event.dly n :: ·) (ih k)
    | wr v => cases hk : ans k <;> simp [flipWant, flipBacklight_wr, play, hk, ih]
    | bind id => cases hk : ans k <;> simp [flipWant, Event.flipBacklight, play, hk, ih]

theorem isFailed_flipBacklight (e : Event) : Event.isFailed (Event.flipBacklight e) = Event.isFailed e := by
  cases e <;> rfl

theorem any_isFailed_map_flipBacklight (es : List Event) :
    (es.map Event.flipBacklight).any Event.isFailed = es.any Event.isFailed := by
  rw [List.any_map]
  exact congrArg es.any (funext isFailed_flipBacklight)

/-- The flip passes through an OR with a byte that has no backlight bit. -/
theorem or_flip {m : Byte} (hm : backlightLine m = false) (v : Byte) : flipByte (v ||| m) = flipByte v ||| m := by
  apply BitVec.eq_of_getLsbD_eq
  intro k hk
  rw [backlightLine] at hm
  interval_cases k <;> simp_all [flipByte]

/-- The flip of a composed byte is the byte composed with the other backlight bit. -/
theorem or_backlightBit_flip {v : Byte} (hv : backlightLine v = false) (bl : Bool) :
    flipByte (v ||| backlightBit bl) = v ||| backlightBit (!bl) := by
  have hbit : flipByte (backlightBit bl) = backlightBit (!bl) := by cases bl <;> rfl
  rw [BitVec.or_comm, or_flip hv, hbit, BitVec.or_comm]

theorem nibbleEvents_flip {p : Params} (hp : p.WellFormed) (v : Byte) :
    nibbleEvents p (flipByte v) = (nibbleEvents p v).map flipWant := by
  simp only [nibbleEvents, List.map_cons, List.map_nil, flipWant,
    or_flip (backlightLine_singleLine (singleLine_enMask hp))]

/-- The other `BL` flips the backlight bit in the events of a byte (43_nibble_transport.md R158). -/
theorem byteEvents_flip {p : Params} (hp : p.WellFormed) {mode : Byte} (hm : Mode p mode) (bl : Bool) (b : Byte) :
    byteEvents p (!bl) mode b = (byteEvents p bl mode b).map flipWant := by
  have nibble {x : Byte} (hx : x &&& 0x0F = 0) :
      nibbleEvents p (x ||| mode ||| backlightBit (!bl))
        = (nibbleEvents p (x ||| mode ||| backlightBit bl)).map flipWant := by
    rw [← nibbleEvents_flip hp, or_backlightBit_flip]
    rw [backlightLine_or, backlightLine_of_nibble hx, backlightLine_mode hp hm]
    rfl
  exact (congrArg₂ (· ++ ·) (nibble (highNibble_low b)) (nibble (lowNibble_low b))).trans List.map_append.symm

theorem commandEvents_flip {p : Params} (hp : p.WellFormed) (bl : Bool) (b : Byte) :
    commandEvents p (!bl) b = (commandEvents p bl b).map flipWant :=
  byteEvents_flip hp (.inl rfl) bl b

theorem textEvents_flip {p : Params} (hp : p.WellFormed) (bl : Bool) (text : List Byte) :
    text.flatMap (dataEvents p (!bl)) = (text.flatMap (dataEvents p bl)).map flipWant := by
  rw [List.map_flatMap]
  exact congrArg text.flatMap (funext (byteEvents_flip hp (.inr rfl) bl))

/-- The other `BL` flips the backlight bit in the events of every operation that does not write `BL`. -/
theorem eventsOf_flip {i : Instr} {s : State} (hp : s.par.WellFormed) (hi : isInit i = false) (hlit : i ≠ .backlight)
    (hdark : i ≠ .nobacklight) : eventsOf i { s with bl := !s.bl } = (eventsOf i s).map flipWant := by
  have command (b : Byte) := commandEvents_flip hp s.bl b
  have waiting (b : Byte) (n : Micros) :
      commandEvents s.par (!s.bl) b ++ [Want.dly n] = (commandEvents s.par s.bl b ++ [Want.dly n]).map flipWant := by
    rw [List.map_append, command]
    rfl
  cases i with
  | init busId => cases hi
  | clear => exact waiting _ _
  | home => exact waiting _ _
  | setcursor col row => exact command _
  | display => exact command _
  | nodisplay => exact command _
  | backlight => exact absurd rfl hlit
  | nobacklight => exact absurd rfl hdark
  | prints text => exact textEvents_flip hp s.bl text
  | printn n => exact textEvents_flip hp s.bl (decimalChars n)
  | cmd b => exact command b
  | data b => exact byteEvents_flip hp (.inr rfl) s.bl b

/-! ### The latch observation does not see the backlight bit -/

theorem line_flip {m : Byte} (hm : Config.SingleLine m) (v : Byte) : (flipByte v &&& m != 0) = (v &&& m != 0) := by
  have hsame : flipByte v &&& m = v &&& m := by
    apply BitVec.eq_of_getLsbD_eq
    intro k hk
    obtain rfl | rfl | rfl := hm <;> interval_cases k <;> simp [flipByte]
  rw [hsame]

theorem enableLine_flip {p : Params} (hp : p.WellFormed) (v : Byte) : enableLine p (flipByte v) = enableLine p v :=
  line_flip (singleLine_enMask hp) v

theorem latchedFrom_flip {p : Params} (hp : p.WellFormed) (v : Byte) :
    latchedFrom p (flipByte v) = latchedFrom p v := by
  have hsel : selectLine p (flipByte v) = selectLine p v := line_flip (singleLine_rsMask hp) v
  have hnib : nibbleLines (flipByte v) = nibbleLines v := by simp [flipByte, nibbleLines, BitVec.extractLsb'_xor]
  rw [latchedFrom, latchedFrom, hsel, hnib]

theorem candidates_flip {p : Params} (hp : p.WellFormed) (vs : List Byte) :
    candidates p (vs.map flipByte) = candidates p vs := by
  induction vs with
  | nil => rfl
  | cons v vs ih =>
    simp only [candidates, List.map_cons, List.filter_cons, enableLine_flip hp] at ih ⊢
    split <;> simp [ih, latchedFrom_flip hp]

/-- The same knowledge of the lines, but for the backlight bit. -/
def flipLines : Lines → Lines
  | .unknown => .unknown
  | .byte v => .byte (flipByte v)
  | .gap vs => .gap (vs.map flipByte)

/-- The observer of the flipped events: it keeps the same records. -/
def flipObserver (o : Observer) : Observer := ⟨flipLines o.lines, o.records⟩

theorem observeAcked_flip {p : Params} (hp : p.WellFormed) (v : Byte) (l : Lines) :
    observeAcked p (flipByte v) (flipLines l) = (flipLines (observeAcked p v l).1, (observeAcked p v l).2) := by
  cases l with
  | unknown => rfl
  | byte u => simp [flipLines, observeAcked, enableLine_flip hp, latchedFrom_flip hp]
  | gap vs =>
    cases hv : enableLine p v <;>
      simp [flipLines, observeAcked, enableLine_flip hp, gapRecord, candidates_flip hp, hv]

theorem observeFailed_flip (v : Byte) (l : Lines) :
    observeFailed (flipByte v) (flipLines l) = flipLines (observeFailed v l) := by
  cases l <;> simp [flipLines, observeFailed]

theorem after_flip {p : Params} (hp : p.WellFormed) (o : Observer) (e : Event) :
    (flipObserver o).after p (Event.flipBacklight e) = flipObserver (o.after p e) := by
  cases e with
  | wr a v x =>
    cases x with
    | ok => simp only [flipBacklight_wr, Observer.after, flipObserver, observeAcked_flip hp]
    | busError => simp only [flipBacklight_wr, Observer.after, flipObserver, observeFailed_flip]
  | bind _ _ | dly _ | done _ _ => rfl

theorem observe_map_flipBacklight {p : Params} (hp : p.WellFormed) (es : List Event) :
    observe p (es.map Event.flipBacklight) = flipObserver (observe p es) := by
  induction es using List.reverseRecOn with
  | nil => rfl
  | append_singleton es e ih =>
    rw [List.map_append, observe_append, observe_append, ih]
    exact after_flip hp _ e

/-- Events that differ in the backlight bit alone show the same records (43_nibble_transport.md R158). -/
theorem latchObservation_map_flipBacklight {p : Params} (hp : p.WellFormed) (es : List Event) :
    latchObservation p (es.map Event.flipBacklight) = latchObservation p es := by
  have hopen (l : Lines) : openRecord p (flipLines l) = openRecord p l := by
    cases l with
    | gap vs => simp only [flipLines, openRecord, candidates_flip hp]
    | unknown | byte _ => rfl
  rw [latchObservation, latchObservation, observe_map_flipBacklight hp]
  exact congrArg _ (hopen _)

/-! ### The record does not depend on the backlight -/

/-- The count of a print is settled by the answers. -/
theorem printCount_unique {s u : State} {k n m : Nat} (hans : u.answerAt = s.answerAt)
    (hn : (Acks s (6 * k) → n = k) ∧ ∀ j, j < 6 * k → FailsAt s j → n = j / 6)
    (hm : (Acks u (6 * k) → m = k) ∧ ∀ j, j < 6 * k → FailsAt u j → m = j / 6) : m = n := by
  simp only [Acks, FailsAt, hans] at hn hm
  obtain h | ⟨j, hj, hf⟩ := acks_or_failsAt s (6 * k)
  · rw [hn.1 h, hm.1 h]
  · rw [hn.2 j hj hf, hm.2 j hj hf]

/-- An operation's record is settled by the answers and by whether its run failed. -/
theorem record_unique {i : Instr} {s u : State} {r q : Run} {st st' : Status} {v v' : Byte} (h : Record i s r st v)
    (g : Record i u q st' v') (hans : u.answerAt = s.answerAt) (hf : q.failed = r.failed) : st' = st ∧ v' = v := by
  cases hab : absorbs i with
  | true =>
    refine ⟨(g.absorbed hab).trans (h.absorbed hab).symm, ?_⟩
    cases i with
    | prints text =>
      obtain ⟨n, rfl, hn⟩ := h.prints text rfl
      obtain ⟨m, rfl, hm⟩ := g.prints text rfl
      rw [printCount_unique hans hn hm]
    | printn w =>
      obtain ⟨n, rfl, hn⟩ := h.printn w rfl
      obtain ⟨m, rfl, hm⟩ := g.printn w rfl
      rw [printCount_unique hans hn hm]
    | _ => cases hab
  | false =>
    cases hr : r.failed with
    | true =>
      obtain ⟨rfl, rfl⟩ := h.failed hab hr
      exact g.failed hab (hf.trans hr)
    | false =>
      obtain rfl := h.completed hab hr
      obtain rfl := g.completed hab (hf.trans hr)
      refine ⟨rfl, ?_⟩
      by_cases hd : ∃ b, i = .data b
      · obtain ⟨b, hb⟩ := hd
        rw [g.one b hb rfl, h.one b hb rfl]
      · push Not at hd
        rw [g.zero hab hd, h.zero hab hd]

/-- The other `BL` flips the backlight bit in the events of an operation that does not write `BL`, and leaves its
record. -/
theorem exec_flip {i : Instr} {s t u : State} (hp : s.par.WellFormed) (hi : isInit i = false) (hlit : i ≠ .backlight)
    (hdark : i ≠ .nobacklight) (ht : exec i s = .next t) (hu : exec i { s with bl := !s.bl } = .next u) :
    ∃ es, t.trace = s.trace ++ es ∧ u.trace = s.trace ++ es.map Event.flipBacklight := by
  obtain ⟨hidle, -⟩ := exec_next_cases ht
  by_cases hready : s.phase = .ready
  · obtain ⟨ttrace, r, hrec, hr⟩ := exec_admitted_plays hp ⟨hidle, .inr hready⟩ ht
    obtain ⟨utrace, q, grec, hq⟩ := exec_admitted_plays (s := { s with bl := !s.bl }) hp ⟨hidle, .inr hready⟩ hu
    rw [eventsOf_flip hp hi hlit hdark, play_map_flipWant] at utrace hq
    rw [any_isFailed_map_flipBacklight] at hq
    obtain ⟨hst, hv⟩ := record_unique hrec grec rfl (hq.trans hr.symm)
    rw [hst, hv] at utrace
    refine ⟨_, ttrace.trans (List.append_assoc _ _ _), ?_⟩
    rw [List.map_append, ← List.append_assoc]
    exact utrace
  · obtain rfl := Host.Outcome.next.inj (ht.symm.trans (exec_of_not_ready hidle hi hready))
    have hrefused := exec_of_not_ready (s := { s with bl := !s.bl }) hidle hi hready
    obtain rfl := Host.Outcome.next.inj (hu.symm.trans hrefused)
    exact ⟨[.done .refused 0], rfl, rfl⟩

/-- Settles O20: the flipped events, and the observer does not see the flip. -/
theorem backlightChangesOnlyBitThree : Obligations.BacklightChangesOnlyBitThree := by
  intro i s t u hp hi hlit hdark ht hu
  obtain ⟨es, htrace, utrace⟩ := exec_flip hp hi hlit hdark ht hu
  exact ⟨es, _, htrace, utrace, rfl, latchObservation_map_flipBacklight hp es⟩

end Sys2Proof.Proofs
end

section
/-! SUPPORT. The exceptions family (60_exceptions.md): which operations are admitted and what a refusal changes (R175,
R179), and how a `BusError` ends an operation (R173, R176). -/

namespace Sys2Proof.Proofs

open Sys2Proof.Machine Sys2Proof.Safety Sys2Proof.Laws

/-! ### The status of a record -/

/-- The record of a run is `OK`, unless the operation propagates a `BusError` and met one. -/
theorem record_ok_or_busErr {i : Instr} {s : State} {r : Run} {st : Status} {v : Byte} (h : Record i s r st v) :
    st = .ok ∨ r.failed = true ∧ st = .busErr := by
  cases hab : absorbs i with
  | true => exact .inl (h.absorbed hab)
  | false =>
    cases hf : r.failed with
    | true => exact .inr ⟨rfl, (h.failed hab hf).1⟩
    | false => exact .inl (h.completed hab hf)

/-- An admitted operation is not refused. -/
theorem record_ne_refused {i : Instr} {s : State} {r : Run} {st : Status} {v : Byte} (h : Record i s r st v) :
    st ≠ .refused := by
  obtain rfl | ⟨-, rfl⟩ := record_ok_or_busErr h <;> nofun

/-- Only a run that failed ends `BUSERR`. -/
theorem record_ne_busErr {i : Instr} {s : State} {r : Run} {st : Status} {v : Byte} (h : Record i s r st v)
    (hf : r.failed = false) : st ≠ .busErr := by
  obtain rfl | ⟨hr, -⟩ := record_ok_or_busErr h
  · nofun
  · rw [hf] at hr; cases hr

/-! ### Admission and refusal -/

/-- Settles O8: `admission` asks for `BUSY` first and then for `PHASE`, and no run's record is a refusal. -/
theorem admissionAndRefusal : Obligations.AdmissionAndRefusal := by
  refine ⟨fun i s t hbusy hexec => ?_, fun i s hadm => ?_, fun i s hidle hi hphase => ?_, fun s hidle => ?_⟩
  · rw [(busyEngineIsStuck i s hbusy).1] at hexec
    cases hexec
  · obtain ⟨st, v, hexec, hrec⟩ := exec_of_admitted hadm
    exact ⟨_, hexec, record_ne_refused hrec⟩
  · rw [exec_of_not_ready hidle hi hphase, complete_of_not_busy hidle.1]
  · rw [execReserved_of_idle hidle, complete_of_not_busy hidle.1]

/-! ### The end of an operation at a `BusError` -/

/-- Whatever an operation answers, it plays some wanted events and adds its `Done`: none if it is refused, and else
its record is that of a run which fails exactly if one of those events did. -/
theorem exec_plays_record {i : Instr} {s t : State} (h : exec i s = .next t) :
    ∃ ws, t.trace = s.trace ++ play s.addr s.answerAt 0 ws ++ [.done t.status t.value]
      ∧ (ws = [] ∧ t.status = .refused
        ∨ ∃ r, Record i s.accept r t.status t.value
            ∧ r.failed = (play s.addr s.answerAt 0 ws).any Event.isFailed) := by
  obtain ⟨-, ⟨-, -, rfl⟩ | ⟨-, st, v, rfl, hrec⟩⟩ := exec_next_cases h
  · exact ⟨[], by rw [play, List.append_nil]; rfl, .inl ⟨rfl, rfl⟩⟩
  · have htrace := (runOps_events (opsOf i s.accept) s.accept).1
    exact ⟨wants s.bl (opsOf i s.accept), by rw [complete_trace, htrace]; rfl,
      .inr ⟨_, hrec, runOps_failed_iff _ _⟩⟩

/-- Settles O41: a failed event is the last played (`play_failed_last`), and the record follows the run's failure. -/
theorem busErrorEndsOperation : Obligations.BusErrorEndsOperation := by
  intro i s t h
  obtain ⟨ws, htrace, hrecord⟩ := exec_plays_record h
  obtain ⟨-, -, hidle⟩ := exec_frame h
  refine ⟨_, htrace, hidle, fun _ _ _ => play_failed_last, ?_⟩
  obtain ⟨rfl, hrefused⟩ | ⟨r, hrec, hr⟩ := hrecord
  · exact ⟨nofun, fun _ => by rw [hrefused]; nofun⟩
  · rw [← hr]
    exact ⟨fun hf => ⟨hrec.absorbed, fun hab => hrec.failed hab hf⟩, record_ne_busErr hrec⟩

end Sys2Proof.Proofs
end

section
/-! SUPPORT. The reset family (70_reset_and_hazards.md): when construction succeeds (10_state.md R23), and what it leaves
(R190; 10_state.md R40). -/

namespace Sys2Proof.Proofs

open Sys2Proof.Config (Params Straps)
open Sys2Proof.Machine

/-- The range of R23 as two bounds. -/
theorem rowsSupported_iff (rows : Word) : Config.rowsSupported rows = true ↔ 1 ≤ rows.toNat ∧ rows.toNat ≤ 4 := by
  rw [Config.rowsSupported, Bool.and_eq_true, decide_eq_true_iff, decide_eq_true_iff]

/-- Construction answers one state, and only for a `ROWS` with a meaning. -/
theorem construct_eq_next_iff (p : Params) (st : Straps) (t : State) :
    State.construct p st = .next t ↔ Config.rowsSupported st.rows = true ∧ t = State.constructed p st := by
  unfold State.construct
  cases Config.rowsSupported st.rows with
  | false => exact ⟨nofun, fun h => nomatch h.1⟩
  | true => exact ⟨fun h => ⟨rfl, (Host.Outcome.next.inj h).symm⟩, fun h => congrArg _ h.2.symm⟩

/-- Settles O51: construction answers `State.constructed` exactly if `ROWS` is supported (`construct_eq_next_iff`). -/
theorem constructionSamplesStraps : Obligations.ConstructionSamplesStraps := by
  refine fun p st => ⟨?_, fun t h => ?_⟩
  · rw [← rowsSupported_iff]
    constructor
    · exact fun hrows => ⟨State.constructed p st, (construct_eq_next_iff p st _).mpr ⟨hrows, rfl⟩⟩
    · rintro ⟨t, h⟩
      exact ((construct_eq_next_iff p st t).mp h).1
  · obtain ⟨-, rfl⟩ := (construct_eq_next_iff p st t).mp h
    exact ⟨rfl, rfl, rfl, rfl, rfl, rfl, rfl, rfl, rfl⟩

end Sys2Proof.Proofs
end
